-- ==== Sys2Proof/Word.lean ====
section
/-! DEFINITION. The widths of the data the block handles (00_scope.md R9, R14, R17; 10_state.md R20, R21). -/

namespace Sys2Proof

/-- A `u32`: a scalar register, a dimension of a shape, a command word (10_state.md R20). -/
abbrev Word := BitVec 32

/-- A `Num`: a binary32 pattern (00_scope.md R9). -/
abbrev Num32 := BitVec 32

/-- An `F16`: a pattern of the 16-bit format `RAW_FMT` (00_scope.md R8). -/
abbrev F16 := BitVec 16

/-- An element code `u4` (00_scope.md R17). -/
abbrev U4 := BitVec 4

/-- An unsigned byte `u8` (00_scope.md R17). -/
abbrev U8 := BitVec 8

/-- A quantized scaler `i8`, as its two's-complement pattern (00_scope.md R17). -/
abbrev I8 := BitVec 8

/-- The sixteen `Num` words of a CodeTable, index 0 first (42_element_codec.md R77, R78). -/
abbrev CodeTable := Vector Num32 16

end Sys2Proof
end

