-- ==== Sys2Proof/Syntax.lean ====
section
/-! DEFINITION. The commands of the block, one constructor per row of spec/opcode_table.json. -/

namespace Sys2Proof

/-- The ten commands (30_encoding.md R55).  A command has no operand field: every operand is a fixed
register or buffer (R52). -/
inductive Instr where
  | absmax
  | scompress
  | sdecompress
  | qnearest
  | dequant
  | qceil
  | pack
  | unpack
  | encode
  | decode
  deriving DecidableEq, Repr

end Sys2Proof
end

