-- ==== Sys2Proof/WellFormed.lean ====
section
/-! DEFINITION. When a command and a command word are well formed, stated on the word's fields
(30_encoding.md R51, R53, R54) and independently of the decoder. -/

namespace Sys2Proof

/-- A command carries no operand (30_encoding.md R52), so there is nothing in it that could be ill formed. -/
def Instr.wf (_ : Instr) : Bool := true

/-- How many functions a unit has; `fn` counts them from 0 (30_encoding.md R54, R55). -/
def functionsOfUnit (unit : Nat) : Nat :=
  match unit with
  | 1 => 1
  | 2 => 2
  | 3 => 3
  | 4 => 2
  | 5 => 2
  | _ => 0

/-- The field `zero`, bits 31:8, holds 0 (30_encoding.md R51). -/
def zeroFieldOk (c : Word) : Bool := c.toNat / 256 == 0

/-- The field `unit`, bits 7:4, names a unit that is used (30_encoding.md R51, R54). -/
def unitFieldOk (c : Word) : Bool := decide (0 < functionsOfUnit (c.toNat / 16 % 16))

/-- The field `fn`, bits 3:0, names a function of the unit (30_encoding.md R51, R54). -/
def fnFieldOk (c : Word) : Bool := decide (c.toNat % 16 < functionsOfUnit (c.toNat / 16 % 16))

/-- A legal command word (30_encoding.md R53). -/
def legalWord (c : Word) : Bool := zeroFieldOk c && unitFieldOk c && fnFieldOk c

end Sys2Proof
end

