-- ==== Sys2Proof/Decode.lean ====
section
/-! DEFINITION. Decoding of a command word, total and rejecting by name, and the encoder
(30_encoding.md R51 to R56). -/

namespace Sys2Proof

/-- Why a word is no command (30_encoding.md R56). All three are reported alike, as IllegalCommand. -/
inductive Reject where
  /-- some bit of the field `zero` (bits 31:8) is set -/
  | zeroField
  /-- the field `unit` holds 0 or 6 to 15 -/
  | noSuchUnit
  /-- the unit is used and has no such function -/
  | noSuchFunction
  deriving DecidableEq, Repr

/-- Field `zero`, bits 31:8 (30_encoding.md R51). -/
def zeroField (c : Word) : BitVec 24 := c.extractLsb' 8 24

/-- Field `unit`, bits 7:4 (30_encoding.md R51). -/
def unitField (c : Word) : BitVec 4 := c.extractLsb' 4 4

/-- Field `fn`, bits 3:0 (30_encoding.md R51). -/
def fnField (c : Word) : BitVec 4 := c.extractLsb' 0 4

/-- The command selected by `unit` and `fn` (30_encoding.md R54, R55). -/
def decodeFields (unit fn : Nat) : Except Reject Instr :=
  match unit with
  | 1 =>
    match fn with
    | 0 => .ok .absmax
    | _ => .error .noSuchFunction
  | 2 =>
    match fn with
    | 0 => .ok .scompress
    | 1 => .ok .sdecompress
    | _ => .error .noSuchFunction
  | 3 =>
    match fn with
    | 0 => .ok .qnearest
    | 1 => .ok .dequant
    | 2 => .ok .qceil
    | _ => .error .noSuchFunction
  | 4 =>
    match fn with
    | 0 => .ok .pack
    | 1 => .ok .unpack
    | _ => .error .noSuchFunction
  | 5 =>
    match fn with
    | 0 => .ok .encode
    | 1 => .ok .decode
    | _ => .error .noSuchFunction
  | _ => .error .noSuchUnit

/-- Decoding of the word written to CMD: legal exactly when bits 31:8 are 0 and bits 7:0 are one of
the ten opcodes (30_encoding.md R53). -/
def decode (c : Word) : Except Reject Instr :=
  if zeroField c = 0 then decodeFields (unitField c).toNat (fnField c).toNat
  else .error .zeroField

/-- The unit of a command (30_encoding.md R55). -/
def unitOf : Instr → BitVec 4
  | .absmax => 1
  | .scompress => 2
  | .sdecompress => 2
  | .qnearest => 3
  | .dequant => 3
  | .qceil => 3
  | .pack => 4
  | .unpack => 4
  | .encode => 5
  | .decode => 5

/-- The function number of a command within its unit (30_encoding.md R55). -/
def fnOf : Instr → BitVec 4
  | .absmax => 0
  | .scompress => 0
  | .sdecompress => 1
  | .qnearest => 0
  | .dequant => 1
  | .qceil => 2
  | .pack => 0
  | .unpack => 1
  | .encode => 0
  | .decode => 1

/-- The word of a command: `zero`, `unit`, `fn` from the top (30_encoding.md R51). -/
def encode (i : Instr) : Word := (0#24 ++ unitOf i) ++ fnOf i

/-- The command an instruction of `nbits` bits numbered as spec/opcode_table.json numbers them decodes to.
A command is one 32-bit word (30_encoding.md R51), so bits above bit 31 make it no command. -/
def decodeTableWord (nbits w : Nat) : Option Instr :=
  if w % 2 ^ nbits < 2 ^ 32 then (decode (BitVec.ofNat 32 (w % 2 ^ nbits))).toOption else none

end Sys2Proof
end

