-- ==== Sys2Proof/Machine/CodeTable.lean ====
section
/-! DEFINITION. The default contents of the ROM CT (42_element_codec.md R77, R78). -/

namespace Sys2Proof.Machine

/-- The CodeTable the spec gives: the sixteen words of 42_element_codec.md R78, each the binary32 value nearest to its
decimal literal of R77. -/
def defaultCodeTable : CodeTable :=
  #v[0xBF800000#32, 0xBF323A2A#32, 0xBF066CF4#32, 0xBECA3055#32,
     0xBE919CE0#32, 0xBE3D3C36#32, 0xBDBA92A3#32, 0x00000000#32,
     0x3DA30553#32, 0x3E24C2F8#32, 0x3E7C01A3#32, 0x3EAD013B#32,
     0x3EE1A36E#32, 0x3F10068E#32, 0x3F391687#32, 0x3F800000#32]

end Sys2Proof.Machine
end

