-- ==== Sys2Proof/Config.lean ====
section
/-! DEFINITION. What an implementation fixes (the OPEN parameters of 00_scope.md R8, R10 and the CodeTable, a
configuration constant with a default by 42_element_codec.md R77 and 93_implementation_defined.md U7) and the free
values: constants without a body, which stand for every result the spec leaves open (93 U2, U3). -/

namespace Sys2Proof

/-- `RAW_FMT`, the 16-bit format of the RawTensor and of the decoded output (00_scope.md R8). -/
inductive RawFmt where
  | binary16
  | bfloat16
  deriving DecidableEq, Repr, Inhabited

/-- The parameters of one copy of the block: the OPEN ones (00_scope.md R8, R10) and the CodeTable
(42_element_codec.md R77). -/
structure Params where
  /-- `RAW_FMT` -/
  rawFmt : RawFmt
  /-- `NMAX`, the largest number of elements of a RAW, CD or OUT buffer -/
  nmax : Nat
  /-- `RANKMAX`, the largest number of dimensions of a SHAPE buffer -/
  rankMax : Nat
  /-- the contents of the ROM CT, with the default of 42_element_codec.md R78 (93_implementation_defined.md U7) -/
  codeTable : CodeTable := Machine.defaultCodeTable
  deriving DecidableEq, Repr

/-- The constraints of 00_scope.md R10: `2 <= NMAX < 2^31` and `RANKMAX >= 1`. -/
abbrev Params.wf (p : Params) : Prop := 2 ≤ p.nmax ∧ p.nmax < 2 ^ 31 ∧ 1 ≤ p.rankMax

namespace Config

/-- OPEN: which format `RAW_FMT` is (00_scope.md R8). -/
opaque rawFmt : RawFmt

/-- OPEN: how far `NMAX` lies above 2, so that `2 <= NMAX < 2^31` (00_scope.md R10). -/
opaque nmaxAboveTwo : Fin 2147483646

/-- OPEN: how far `RANKMAX` lies above 1 (00_scope.md R10). -/
opaque rankMaxAboveOne : Nat

/-- OPEN: how far `NINST` lies above 1 (00_scope.md R10). -/
opaque ninstAboveOne : Nat

/-- The parameters of the block: no proof can see the OPEN ones, only that they meet R10's constraints. The CodeTable
is the default one, the table after reset (10_state.md R31). -/
def params : Params where
  rawFmt := rawFmt
  nmax := nmaxAboveTwo.val + 2
  rankMax := rankMaxAboveOne + 1
  codeTable := Machine.defaultCodeTable

/-- `NINST`, the number of independent copies of the block in a system (00_scope.md R10). -/
def ninst : Nat := ninstAboveOne + 1

/-! Free values. Each is applied to the operands of the operation whose result the spec leaves open. -/

/-- `fadd` of an operand that is infinite or NaN (00_scope.md R15, 93 U2). -/
opaque openAdd : Num32 → Num32 → Num32

/-- `fsub` of an operand that is infinite or NaN (00_scope.md R15, 93 U2). -/
opaque openSub : Num32 → Num32 → Num32

/-- `fmul` of an operand that is infinite or NaN (00_scope.md R15, 93 U2). -/
opaque openMul : Num32 → Num32 → Num32

/-- `fdiv` of an operand that is infinite or NaN, or by zero (00_scope.md R15, 93 U2, U3). -/
opaque openDiv : Num32 → Num32 → Num32

/-- `fabs` of an infinity or NaN (00_scope.md R15, 93 U2). -/
opaque openAbs : Num32 → Num32

/-- `fmax` of an operand that is infinite or NaN (00_scope.md R15, 93 U2). -/
opaque openMax : Num32 → Num32 → Num32

/-- `rint` of an infinity or NaN (00_scope.md R16, 93 U2). -/
opaque openRint : Num32 → Int

/-- `widen` of an infinity or NaN (00_scope.md R14, 93 U2). -/
opaque openWiden : RawFmt → F16 → Num32

/-- `narrow` of an infinity or NaN (00_scope.md R14, 93 U2). -/
opaque openNarrow : RawFmt → Num32 → F16

/-- The factor of a chunk whose absmax is not finite, or whose factor comes out zero, infinite or NaN
(41_scaler_codec.md R68, 93 U3). -/
opaque openFactor : Num32 → Num32

/-- `quantize_nearest` of an infinity or NaN (42_element_codec.md R79, 93 U2). -/
opaque openNearest : Num32 → U4

/-- `quantize_ceil` of an infinity or NaN (42_element_codec.md R83, 93 U2). -/
opaque openCeil : Num32 → U4

end Config

end Sys2Proof
end

