-- ==== Sys2Proof/Machine/State.lean ====
section
/-! DEFINITION. The state of one copy of the block as plain data, what reaches it from outside, the reasons a
step can stop, and the state after reset (10_state.md). -/

namespace Sys2Proof.Machine

/-- The error kinds (60_exceptions.md R110). -/
inductive ErrorKind where
  | shape
  | degenerateScale
  | indexRange
  | corruptedState
  | illegalCommand
  deriving DecidableEq, Repr

/-- What `raise E(chk, exp, act)` reports (60_exceptions.md R112). -/
structure Failure where
  kind : ErrorKind
  chk : Nat
  exp : Nat
  act : Nat
  deriving DecidableEq, Repr

/-- The four error registers, overwritten together by every command (10_state.md R30). -/
structure ErrorRegs where
  err : Word
  errchk : Word
  errexp : Word
  erract : Word
  deriving DecidableEq, Repr

/-- The aggregate W, its seven fields in the order of 10_state.md R23. It is only ever replaced as a
whole (R24). -/
structure Aggregate where
  /-- register W_B -/
  blockSize : Word
  /-- register W_S -/
  scalerBlockSize : Word
  /-- buffer W_SHAPE -/
  originalShape : List Word
  /-- buffer W_QS -/
  quantizedScalers : List I8
  /-- buffer W_QF -/
  quantizationFactor : List Num32
  /-- register W_MEAN -/
  scalerMean : Num32
  /-- buffer W_PACKED -/
  packedBytes : List U8
  deriving DecidableEq, Repr

/-- The fifteen buffer spaces (10_state.md R21). -/
inductive Space where
  | raw
  | shape
  | va
  | vr
  | sq
  | sf
  | cd
  | pk
  | wShape
  | wQs
  | wQf
  | wPacked
  | out
  | outShape
  | ct
  deriving DecidableEq, Repr

/-- The contents of a buffer, by element type (10_state.md R21). -/
inductive Payload where
  | f16 (xs : List F16)
  | u32 (xs : List Word)
  | num (xs : List Num32)
  | i8 (xs : List I8)
  | u4 (xs : List U4)
  | u8 (xs : List U8)
  deriving DecidableEq, Repr

/-- One element of a buffer, by element type (10_state.md R21). -/
inductive Elem where
  | f16 (x : F16)
  | u32 (x : Word)
  | num (x : Num32)
  | i8 (x : I8)
  | u4 (x : U4)
  | u8 (x : U8)
  deriving DecidableEq, Repr

/-- What a read move returns to the host (20_memory.md R43, R44). -/
inductive Reply where
  /-- HostReadReg -/
  | word (w : Word)
  /-- MemRead -/
  | elem (e : Elem)
  /-- MemLen -/
  | length (n : Nat)
  deriving DecidableEq, Repr

/-- What reaches the block from outside: the host moves of 20_memory.md R43 and the reset event of
70_reset_and_hazards.md R126. Registers and spaces are named by their numbers. -/
inductive HostMove where
  /-- HostWriteReg(n, v); n = 0 is CMD, where the write executes the command word v -/
  | writeReg (n : Nat) (v : Word)
  /-- HostReadReg(n) -/
  | readReg (n : Nat)
  /-- MemWrite(space, X) -/
  | memWrite (space : Nat) (x : Payload)
  /-- MemRead(space, i) -/
  | memRead (space : Nat) (i : Nat)
  /-- MemLen(space) -/
  | memLen (space : Nat)
  /-- HostLoadW(w) -/
  | loadW (w : Aggregate)
  /-- the reset event -/
  | reset
  deriving DecidableEq, Repr

/-- What stops the machine with a fault. The block itself has no trap (60_exceptions.md R118): every error of
a command is a next state. -/
inductive Fault where
  /-- A MemWrite, MemRead or MemLen names a space number above 14, which does not exist (20_memory.md R35,
  93_implementation_defined.md U11). Raised by `perform`. Safe: no rule defines the move. -/
  | noSuchSpace (space : Nat)
  deriving DecidableEq, Repr

/-- What has no meaning in the model. -/
inductive Refusal where
  /-- An instruction without a meaning; no arm of `exec` answers with it. Safe. -/
  | notModelled (mnemonic : String)
  /-- A MemWrite longer than the space's capacity has no move (20_memory.md R44, 93 U11). Raised by `memWrite`.
  Safe. -/
  | overCapacity (space : Nat)
  /-- A MemWrite whose elements are not of the space's element type is not allowed (20_memory.md R43). Raised by
  `memWrite`. Safe. -/
  | elementType (space : Nat)
  /-- A HostLoadW with a field longer than its capacity has no move (20_memory.md R44, R45, 93 U11). Raised by
  `loadW`. Safe. -/
  | aggregateOverCapacity
  deriving DecidableEq, Repr

/-- The state of one copy of the block: the scalar registers of 10_state.md R20 and the buffers of R21, and three
fields of the model's own (`params`, `inbox`, `replies`; assumption log 1 and 2). The ROM CT (R22) is
one of the parameters, `params.codeTable` (assumption log 7). -/
structure State where
  /-- ERR, ERRCHK, ERREXP, ERRACT -/
  errors : ErrorRegs
  regB : Word
  regS : Word
  regK : Word
  regXV : Num32
  regXI : Word
  regRV : Num32
  regRI : Word
  regSM : Num32
  raw : List F16
  shape : List Word
  va : List Num32
  vr : List Num32
  sq : List I8
  sf : List Num32
  cd : List U4
  pk : List U8
  /-- W_B, W_S, W_SHAPE, W_QS, W_QF, W_MEAN, W_PACKED -/
  w : Aggregate
  out : List F16
  outShape : List Word
  /-- MODEL: the OPEN parameters of this copy of the block, and its ROM CT; no step changes them -/
  params : Params
  /-- MODEL: the moves the outside is going to make, oldest first -/
  inbox : List HostMove
  /-- MODEL: what the host's read moves have returned, oldest first -/
  replies : List Reply
  deriving DecidableEq, Repr

/-- The error registers after a command that completes, and after reset (60_exceptions.md R111, 10_state.md R31). -/
def ErrorRegs.clear : ErrorRegs := ⟨0, 0, 0, 0⟩

/-- The aggregate after reset (10_state.md R31). -/
def Aggregate.empty : Aggregate := ⟨0, 0, [], [], [], 0, []⟩

/-- The state after reset (10_state.md R31) of a block with parameters `p`, with the outside's `inbox` and
`replies`. -/
def State.resetOf (p : Params) (inbox : List HostMove) (replies : List Reply) : State where
  errors := ErrorRegs.clear
  regB := 0
  regS := 0
  regK := 0
  regXV := 0
  regXI := 0
  regRV := 0
  regRI := 0
  regSM := 0
  raw := []
  shape := []
  va := []
  vr := []
  sq := []
  sf := []
  cd := []
  pk := []
  w := Aggregate.empty
  out := []
  outShape := []
  params := p
  inbox := inbox
  replies := replies

/-- The machine right after reset, idle, nothing placed (10_state.md R31, 70_reset_and_hazards.md R126). -/
def State.reset : State := State.resetOf Config.params [] []

end Sys2Proof.Machine
end

