-- ==== Sys2Proof/Machine/Operands.lean ====
section
/-! DEFINITION. The register file and the buffer spaces as the host and the commands see them: numbers, access
columns, element types, lengths, capacities and reads (10_state.md R20, R21; 20_memory.md R43, R44). -/

namespace Sys2Proof.Machine

/-- The space a number names, 0 to 14 (10_state.md R21). -/
def spaceOfNumber (n : Nat) : Option Space :=
  match n with
  | 0 => some .raw
  | 1 => some .shape
  | 2 => some .va
  | 3 => some .vr
  | 4 => some .sq
  | 5 => some .sf
  | 6 => some .cd
  | 7 => some .pk
  | 8 => some .wShape
  | 9 => some .wQs
  | 10 => some .wQf
  | 11 => some .wPacked
  | 12 => some .out
  | 13 => some .outShape
  | 14 => some .ct
  | _ => none

/-- The number of a space (10_state.md R21). -/
def numberOfSpace : Space → Nat
  | .raw => 0
  | .shape => 1
  | .va => 2
  | .vr => 3
  | .sq => 4
  | .sf => 5
  | .cd => 6
  | .pk => 7
  | .wShape => 8
  | .wQs => 9
  | .wQf => 10
  | .wPacked => 11
  | .out => 12
  | .outShape => 13
  | .ct => 14

/-- The spaces the host may replace by MemWrite, marked RW (10_state.md R21). -/
def hostWritable : Space → Bool
  | .raw => true
  | .shape => true
  | .va => true
  | .vr => false
  | .sq => true
  | .sf => true
  | .cd => true
  | .pk => true
  | .wShape => false
  | .wQs => false
  | .wQf => false
  | .wPacked => false
  | .out => false
  | .outShape => false
  | .ct => false

/-- The largest length a space can hold (10_state.md R21). -/
def capacity (p : Params) : Space → Nat
  | .raw => p.nmax
  | .shape => p.rankMax
  | .va => p.nmax
  | .vr => p.nmax
  | .sq => p.nmax
  | .sf => p.nmax
  | .cd => p.nmax
  | .pk => p.nmax / 2
  | .wShape => p.rankMax
  | .wQs => p.nmax
  | .wQf => p.nmax
  | .wPacked => p.nmax / 2
  | .out => p.nmax
  | .outShape => p.rankMax
  | .ct => 16

/-- The contents of a space. CT is the ROM, a parameter that no step changes (10_state.md R21, R22). -/
def bufferOf (s : State) : Space → Payload
  | .raw => .f16 s.raw
  | .shape => .u32 s.shape
  | .va => .num s.va
  | .vr => .num s.vr
  | .sq => .i8 s.sq
  | .sf => .num s.sf
  | .cd => .u4 s.cd
  | .pk => .u8 s.pk
  | .wShape => .u32 s.w.originalShape
  | .wQs => .i8 s.w.quantizedScalers
  | .wQf => .num s.w.quantizationFactor
  | .wPacked => .u8 s.w.packedBytes
  | .out => .f16 s.out
  | .outShape => .u32 s.outShape
  | .ct => .num s.params.codeTable.toList

/-- `BUF.len` (00_scope.md R12). -/
def payloadLength : Payload → Nat
  | .f16 xs => xs.length
  | .u32 xs => xs.length
  | .num xs => xs.length
  | .i8 xs => xs.length
  | .u4 xs => xs.length
  | .u8 xs => xs.length

/-- `MemRead`: element `i`, or 0 at or beyond the length (20_memory.md R44). -/
def payloadRead (x : Payload) (i : Nat) : Elem :=
  match x with
  | .f16 xs => .f16 (xs.getD i 0)
  | .u32 xs => .u32 (xs.getD i 0)
  | .num xs => .num (xs.getD i 0)
  | .i8 xs => .i8 (xs.getD i 0)
  | .u4 xs => .u4 (xs.getD i 0)
  | .u8 xs => .u8 (xs.getD i 0)

/-- What the host reads from register `n`: CMD and the numbers from 16 on read 0 (10_state.md R20,
20_memory.md R43). -/
def readReg (s : State) (n : Nat) : Word :=
  match n with
  | 1 => s.errors.err
  | 2 => s.errors.errchk
  | 3 => s.errors.errexp
  | 4 => s.errors.erract
  | 5 => s.regB
  | 6 => s.regS
  | 7 => s.regK
  | 8 => s.regXV
  | 9 => s.regXI
  | 10 => s.regRV
  | 11 => s.regRI
  | 12 => s.regSM
  | 13 => s.w.blockSize
  | 14 => s.w.scalerBlockSize
  | 15 => s.w.scalerMean
  | _ => 0

/-- A host write of a stored register: RW registers take the value; RO and RO* registers and the numbers from 16
on ignore it (10_state.md R20, 20_memory.md R43). A write of CMD is an event and not handled here. -/
def storeReg (s : State) (n : Nat) (v : Word) : State :=
  match n with
  | 5 => { s with regB := v }
  | 6 => { s with regS := v }
  | 7 => { s with regK := v }
  | 8 => { s with regXV := v }
  | 9 => { s with regXI := v }
  | 12 => { s with regSM := v }
  | _ => s

/-- `BUF <- X` of a host-writable space; none where the elements are not of the space's type or the space is not
host-writable (10_state.md R21, 20_memory.md R43, R44). -/
def storeBuffer (s : State) : Space → Payload → Option State
  | .raw, .f16 xs => some { s with raw := xs }
  | .shape, .u32 xs => some { s with shape := xs }
  | .va, .num xs => some { s with va := xs }
  | .sq, .i8 xs => some { s with sq := xs }
  | .sf, .num xs => some { s with sf := xs }
  | .cd, .u4 xs => some { s with cd := xs }
  | .pk, .u8 xs => some { s with pk := xs }
  | _, _ => none

/-- `product(D)`, exact, 1 for the empty sequence (00_scope.md R12, R34). -/
def product (dims : List Word) : Nat := (dims.map BitVec.toNat).foldr (· * ·) 1

/-- The test of checks 21 and 36: some dimension is 0 or the product is not `n` (60_exceptions.md R113). -/
def shapeMismatch (dims : List Word) (n : Nat) : Bool := dims.any (· == 0) || product dims != n

end Sys2Proof.Machine
end

