-- ==== Sys2Proof/Machine/Ops.lean ====
section
/-! DEFINITION. The named operations on the state: reporting an error and finishing a command
(60_exceptions.md R111, R112), the writes of the commands, and the host moves other than a write of CMD
(20_memory.md R43 to R45; 70_reset_and_hazards.md R126). -/

namespace Sys2Proof.Machine

/-- One step's outcome. -/
abbrev Result := Host.Outcome State Fault Refusal

/-! ## Errors -/

/-- The code an error kind leaves in ERR (60_exceptions.md R110). -/
def errorCode : ErrorKind → Word
  | .shape => 1
  | .degenerateScale => 2
  | .indexRange => 3
  | .corruptedState => 4
  | .illegalCommand => 5

/-- A reported value reduced to 32 bits: `min(value, 2^32-1)` (60_exceptions.md R112). -/
def saturate32 (n : Nat) : Word := BitVec.ofNat 32 (min n (2 ^ 32 - 1))

/-- `raise E(chk, exp, act)`: the one shared way a command ends in an error; nothing but the four error registers
changes (60_exceptions.md R112). -/
def raise (f : Failure) (s : State) : State :=
  { s with
    errors :=
      { err := errorCode f.kind
        errchk := saturate32 f.chk
        errexp := saturate32 f.exp
        erract := saturate32 f.act } }

/-- `done`: the error registers are cleared (60_exceptions.md R111). -/
def finish (s : State) : State := { s with errors := ErrorRegs.clear }

/-- A check: the condition under which it fails and what it reports. -/
abbrev Check := Bool × Failure

/-- The first failing check; later ones are not evaluated (60_exceptions.md R114). -/
def firstFailing : List Check → Option Failure
  | [] => none
  | (fails, f) :: rest => if fails then some f else firstFailing rest

/-- A command: its checks before all its writes, then `raise` or `done` (60_exceptions.md R111, R112). -/
def guarded (s : State) (checks : List Check) (effect : State → State) : Result :=
  match firstFailing checks with
  | some f => .next (raise f s)
  | none => .next (finish (effect s))

/-- An illegal command word: 5 / 40 / 0 / the word (30_encoding.md R56, 60_exceptions.md R116). -/
def illegalCommand (c : Word) (s : State) : State := raise ⟨.illegalCommand, 40, 0, c.toNat⟩ s

/-! ## What the commands write (10_state.md R20, R21) -/

/-- `VR <- xs`. -/
def setVR (xs : List Num32) (s : State) : State := { s with vr := xs }

/-- `SQ <- q; SF <- f; r[SM] <- m`. -/
def setScaler (q : List I8) (f : List Num32) (m : Num32) (s : State) : State := { s with sq := q, sf := f, regSM := m }

/-- `r[RI] <- zext_32(code)`. -/
def setRI (code : U4) (s : State) : State := { s with regRI := code.setWidth 32 }

/-- `r[RV] <- v`. -/
def setRV (v : Num32) (s : State) : State := { s with regRV := v }

/-- `PK <- xs`. -/
def setPK (xs : List U8) (s : State) : State := { s with pk := xs }

/-- `CD <- xs`. -/
def setCD (xs : List U4) (s : State) : State := { s with cd := xs }

/-- The seven items of W, together (10_state.md R24). -/
def setW (w : Aggregate) (s : State) : State := { s with w := w }

/-- `OUT <- xs; OUT_SHAPE <- dims`. -/
def setOut (xs : List F16) (dims : List Word) (s : State) : State := { s with out := xs, outShape := dims }

/-! ## Host moves -/

/-- A read move hands a value back to the host and changes nothing of the block (20_memory.md R42, R43). -/
def answer (r : Reply) (s : State) : State := { s with replies := s.replies ++ [r] }

/-- `MemWrite(space, X)` (20_memory.md R43, R44): ignored on spaces that are not RW; no move where the elements are
of another type or too many. -/
def memWrite (n : Nat) (x : Payload) (s : State) : Result :=
  match spaceOfNumber n with
  | none => .fault (.noSuchSpace n)
  | some sp =>
    if hostWritable sp then
      match storeBuffer s sp x with
      | none => .refused (.elementType n)
      | some t => if payloadLength x ≤ capacity s.params sp then .next t else .refused (.overCapacity n)
    else .next s

/-- `MemRead(space, i)` (20_memory.md R44). -/
def memRead (n i : Nat) (s : State) : Result :=
  match spaceOfNumber n with
  | none => .fault (.noSuchSpace n)
  | some sp => .next (answer (.elem (payloadRead (bufferOf s sp) i)) s)

/-- `MemLen(space)` (20_memory.md R44). -/
def memLen (n : Nat) (s : State) : Result :=
  match spaceOfNumber n with
  | none => .fault (.noSuchSpace n)
  | some sp => .next (answer (.length (payloadLength (bufferOf s sp))) s)

/-- Every buffer of an aggregate is within its capacity (10_state.md R21). -/
abbrev aggregateFits (p : Params) (w : Aggregate) : Prop :=
  w.originalShape.length ≤ capacity p .wShape ∧ w.quantizedScalers.length ≤ capacity p .wQs ∧
    w.quantizationFactor.length ≤ capacity p .wQf ∧ w.packedBytes.length ≤ capacity p .wPacked

/-- `HostLoadW(w)`: all seven fields at once, no check but capacity, ERR unchanged (20_memory.md R45). -/
def loadW (w : Aggregate) (s : State) : Result :=
  if aggregateFits s.params w then .next (setW w s) else .refused .aggregateOverCapacity

/-- The reset event: every register and buffer of 10_state.md R31; the parameters and what belongs to the outside
stay (70_reset_and_hazards.md R126). -/
def resetEvent (s : State) : State := State.resetOf s.params s.inbox s.replies

end Sys2Proof.Machine
end

