-- ==== Sys2Proof/Machine/Flags.lean ====
section
/-! DEFINITION. The block has no flags (10_state.md R28). The only status a command leaves is its error result:
here is every check of the block, command by command, with the values it reports (60_exceptions.md R113). -/

namespace Sys2Proof.Machine

/-- Checks 1 and 2 (40_block_statistics.md R63). -/
def absmaxChecks (s : State) : List Check :=
  [(s.regK == 0, ⟨.shape, 1, 1, 0⟩),
   (s.va.length % s.regK.toNat != 0, ⟨.shape, 2, s.regK.toNat, s.va.length⟩)]

/-- Checks 3 to 5 (41_scaler_codec.md R75). -/
def scompressChecks (s : State) : List Check :=
  [(s.va.length == 0, ⟨.shape, 3, 1, 0⟩),
   (s.regK == 0, ⟨.shape, 4, 1, 0⟩),
   (s.va.length % s.regK.toNat != 0, ⟨.shape, 5, s.regK.toNat, s.va.length⟩)]

/-- Checks 6 to 8 (41_scaler_codec.md R76). -/
def sdecompressChecks (s : State) : List Check :=
  [(s.regK == 0, ⟨.corruptedState, 6, 1, 0⟩),
   (s.sq.length % s.regK.toNat != 0, ⟨.corruptedState, 7, s.regK.toNat, s.sq.length⟩),
   (s.sf.length != s.sq.length / s.regK.toNat,
    ⟨.corruptedState, 8, s.sq.length / s.regK.toNat, s.sf.length⟩)]

/-- Check 9: the whole 32-bit value of XI is compared (42_element_codec.md R85). -/
def dequantChecks (s : State) : List Check :=
  [(decide (15 < s.regXI.toNat), ⟨.indexRange, 9, 15, s.regXI.toNat⟩)]

/-- Check 10 (43_packer.md R92). -/
def packChecks (s : State) : List Check :=
  [(s.cd.length % 2 != 0, ⟨.shape, 10, 2, s.cd.length⟩)]

/-- Checks 20 to 26 (44_packed_weight_codec.md R96). -/
def encodeChecks (s : State) : List Check :=
  [(s.raw.length == 0, ⟨.shape, 20, 1, 0⟩),
   (shapeMismatch s.shape s.raw.length, ⟨.shape, 21, s.raw.length, product s.shape⟩),
   (s.regB == 0, ⟨.shape, 22, 1, 0⟩),
   (s.raw.length % s.regB.toNat != 0, ⟨.shape, 23, s.regB.toNat, s.raw.length⟩),
   (s.regS == 0, ⟨.shape, 24, 1, 0⟩),
   (s.raw.length / s.regB.toNat % s.regS.toNat != 0,
    ⟨.shape, 25, s.regS.toNat, s.raw.length / s.regB.toNat⟩),
   (s.raw.length % 2 != 0, ⟨.shape, 26, 2, s.raw.length⟩)]

/-- Checks 30 to 36, with `N = 2 * W_PACKED.len` (44_packed_weight_codec.md R100). -/
def decodeChecks (w : Aggregate) : List Check :=
  let n := 2 * w.packedBytes.length
  [(w.blockSize == 0, ⟨.corruptedState, 30, 1, 0⟩),
   (n % w.blockSize.toNat != 0, ⟨.corruptedState, 31, w.blockSize.toNat, n⟩),
   (w.quantizedScalers.length != n / w.blockSize.toNat,
    ⟨.corruptedState, 32, n / w.blockSize.toNat, w.quantizedScalers.length⟩),
   (w.scalerBlockSize == 0, ⟨.corruptedState, 33, 1, 0⟩),
   (w.quantizedScalers.length % w.scalerBlockSize.toNat != 0,
    ⟨.corruptedState, 34, w.scalerBlockSize.toNat, w.quantizedScalers.length⟩),
   (w.quantizationFactor.length != w.quantizedScalers.length / w.scalerBlockSize.toNat,
    ⟨.corruptedState, 35, w.quantizedScalers.length / w.scalerBlockSize.toNat, w.quantizationFactor.length⟩),
   (shapeMismatch w.originalShape n, ⟨.corruptedState, 36, n, product w.originalShape⟩)]

end Sys2Proof.Machine
end

