-- ==== Sys2Proof/Machine/Numeric.lean ====
section
/-! DEFINITION. The numeric primitives of 00_scope.md R14 to R16. A finite pattern stands for an integer multiple
of its format's smallest subnormal; every operation is computed exactly on those integers and rounded once. Where
an operand is infinite or NaN, or a divisor zero, the result is a free value of Config. -/

namespace Sys2Proof.Machine

/-! ## Formats (R14) -/

/-- A floating-point format: `e` exponent bits, `f` fraction bits, bias `b` (R14). -/
structure Format where
  expBits : Nat
  fracBits : Nat
  bias : Nat
  deriving DecidableEq, Repr

/-- binary32, the format of `Num` (R14). -/
def binary32 : Format := ⟨8, 23, 127⟩

/-- The format of an `F16` (R14). -/
def formatOf : RawFmt → Format
  | .binary16 => ⟨5, 10, 15⟩
  | .bfloat16 => ⟨8, 7, 127⟩

/-- The smallest subnormal of the format is `2 ^ (-unitExp)`: `1 - b - f` (R14). -/
def unitExp (fmt : Format) : Nat := fmt.bias + fmt.fracBits - 1

/-- The position of the sign bit, `e + f` (R14). -/
def signPos (fmt : Format) : Nat := fmt.expBits + fmt.fracBits

/-- The pattern of infinity without its sign: all exponent bits set, fraction 0 (R14). -/
def infinityBits (fmt : Format) : Nat := (2 ^ fmt.expBits - 1) * 2 ^ fmt.fracBits

/-- The sign bit of a pattern (R14). -/
def isNegative (fmt : Format) (w : Nat) : Bool := w.testBit (signPos fmt)

/-- A pattern without its sign bit. -/
def magnitudeBits (fmt : Format) (w : Nat) : Nat := w % 2 ^ signPos fmt

/-- Zero, subnormal or normal: neither infinity nor NaN (R14). -/
def isFinitePattern (fmt : Format) (w : Nat) : Bool := decide (magnitudeBits fmt w < infinityBits fmt)

/-- The magnitude a finite pattern stands for, as a multiple of the smallest subnormal: `F` when `E = 0`, else
`(2^f + F) * 2^(E-1)` (R14). -/
def magnitude (fmt : Format) (w : Nat) : Nat :=
  let E := magnitudeBits fmt w / 2 ^ fmt.fracBits
  let F := magnitudeBits fmt w % 2 ^ fmt.fracBits
  if E = 0 then F else (2 ^ fmt.fracBits + F) * 2 ^ (E - 1)

/-- The pattern with a given sign and given remaining bits. -/
def withSign (fmt : Format) (neg : Bool) (bits : Nat) : Nat :=
  (if neg then 2 ^ signPos fmt else 0) + bits

/-! ## Rounding (R14, R15, R16) -/

/-- The integer nearest to `n / d`, a half going to the even one. -/
def roundHalfEven (n d : Nat) : Nat :=
  let q := n / d
  let r := n % d
  if 2 * r < d then q
  else if d < 2 * r then q + 1
  else q + q % 2

/-- The bits, without sign, of the value of the format nearest to `n / d` smallest subnormals, ties to the even
fraction field; infinity beyond the largest finite value (R14, R15). -/
def roundBits (fmt : Format) (n d : Nat) : Nat :=
  let shift := Nat.log2 (n / d) - fmt.fracBits
  min (shift * 2 ^ fmt.fracBits + roundHalfEven n (d * 2 ^ shift)) (infinityBits fmt)

/-! ## `Num` -/

/-- Neither infinite nor NaN. -/
def isFinite (a : Num32) : Bool := isFinitePattern binary32 a.toNat

/-- The sign bit of a `Num`. -/
def signOf (a : Num32) : Bool := isNegative binary32 a.toNat

/-- The magnitude of a finite `Num`, in multiples of `2^-149`. -/
def magOf (a : Num32) : Nat := magnitude binary32 a.toNat

/-- The value of a finite `Num`, in multiples of `2^-149`; both zeros give 0 (R14). -/
def units (a : Num32) : Int := if signOf a then -(magOf a : Int) else (magOf a : Int)

/-- `real(a)` (R14). -/
def real (a : Num32) : ℚ := (units a : ℚ) / 2 ^ 149

/-- A comparison with zero compares `real` values, so `+0` and `-0` are zero (R15). -/
def isZero (a : Num32) : Bool := isFinite a && magOf a == 0

/-- The `Num` nearest to `n / d` multiples of `2^-149`, with the sign given. -/
def roundNum (neg : Bool) (n d : Nat) : Num32 := BitVec.ofNat 32 (withSign binary32 neg (roundBits binary32 n d))

/-- The `Num` nearest to an exact sum of `v` multiples of `2^-149`; an exact zero takes the sign given, which is
that of two zeros of one sign and `+0` when values cancel (R15, 93 U14). -/
def roundSum (zeroNeg : Bool) (v : Int) : Num32 :=
  if v = 0 then roundNum zeroNeg 0 1 else roundNum (decide (v < 0)) v.natAbs 1

/-- `fadd` (R15). -/
def fadd (a b : Num32) : Num32 :=
  if isFinite a && isFinite b then roundSum (signOf a && signOf b) (units a + units b)
  else Config.openAdd a b

/-- `fsub` (R15). -/
def fsub (a b : Num32) : Num32 :=
  if isFinite a && isFinite b then roundSum (signOf a && !signOf b) (units a - units b)
  else Config.openSub a b

/-- `fmul` (R15). -/
def fmul (a b : Num32) : Num32 :=
  if isFinite a && isFinite b then roundNum (signOf a ^^ signOf b) (magOf a * magOf b) (2 ^ 149)
  else Config.openMul a b

/-- `fdiv` (R15); by zero it has no meaning (93 U3). -/
def fdiv (a b : Num32) : Num32 :=
  if isFinite a && isFinite b && !isZero b then
    roundNum (signOf a ^^ signOf b) (magOf a * 2 ^ 149) (magOf b)
  else Config.openDiv a b

/-- `fabs` clears the sign bit (R15). -/
def fabs (a : Num32) : Num32 := if isFinite a then a &&& 0x7FFFFFFF#32 else Config.openAbs a

/-- `fmax`: the operand with the larger `real` value, the first when they are equal (R15). -/
def fmax (a b : Num32) : Num32 :=
  if isFinite a && isFinite b then (if units a < units b then b else a) else Config.openMax a b

/-- `i2f`: the `Num` nearest to an integer (R15). -/
def i2f (n : Int) : Num32 := roundNum (decide (n < 0)) (n.natAbs * 2 ^ 149) 1

/-- `mean_fn`: the sum in increasing index order from `+0`, divided once by the length (R15). -/
def meanFn (xs : List Num32) : Num32 := fdiv (xs.foldl fadd 0) (i2f xs.length)

/-- `rint`: the nearest integer, a half going to the even one (R16). -/
def rint (a : Num32) : Int :=
  if isFinite a then
    let m := roundHalfEven (magOf a) (2 ^ 149)
    if signOf a then -(m : Int) else (m : Int)
  else Config.openRint a

/-- `sat8`: an integer clamped to `[-128, 127]`, as its two's-complement byte (R16, R17). -/
def sat8 (n : Int) : I8 := BitVec.ofInt 8 (max (-128) (min 127 n))

/-! ## `F16` -/

/-- Neither infinite nor NaN, for a pattern of the raw format. -/
def isFinite16 (fmt : RawFmt) (h : F16) : Bool := isFinitePattern (formatOf fmt) h.toNat

/-- The sign bit of an `F16`; both formats have it at bit 15. -/
def sign16 (fmt : RawFmt) (h : F16) : Bool := isNegative (formatOf fmt) h.toNat

/-- The value of a finite `F16`, in multiples of the format's smallest subnormal. -/
def units16 (fmt : RawFmt) (h : F16) : Int :=
  if sign16 fmt h then -(magnitude (formatOf fmt) h.toNat : Int) else (magnitude (formatOf fmt) h.toNat : Int)

/-- `real(h)` of an `F16` (R14). -/
def real16 (fmt : RawFmt) (h : F16) : ℚ := (units16 fmt h : ℚ) / 2 ^ unitExp (formatOf fmt)

/-- `widen`: the `Num` of the same value and sign (R14). -/
def widen (fmt : RawFmt) (h : F16) : Num32 :=
  if isFinite16 fmt h then
    roundNum (sign16 fmt h) (magnitude (formatOf fmt) h.toNat * 2 ^ 149) (2 ^ unitExp (formatOf fmt))
  else Config.openWiden fmt h

/-- `narrow`: the nearest `F16` value, ties to the even fraction field, infinity beyond the largest finite value
(R14). -/
def narrow (fmt : RawFmt) (v : Num32) : F16 :=
  if isFinite v then
    BitVec.ofNat 16
      (withSign (formatOf fmt) (signOf v)
        (roundBits (formatOf fmt) (magOf v * 2 ^ unitExp (formatOf fmt)) (2 ^ 149)))
  else Config.openNarrow fmt v

end Sys2Proof.Machine
end

