-- ==== Sys2Proof/Machine/Element.lean ====
section
/-! DEFINITION. The ElementCodec unit over any CodeTable: quantize_nearest, dequantize, quantize_ceil, QNEAREST, DEQUANT
and QCEIL (42_element_codec.md). -/

namespace Sys2Proof.Machine

/-- What a CodeTable must be (42_element_codec.md R77, 93_implementation_defined.md U7): finite words, strictly
increasing, with -1 at index 0, `+0` at index 7 and 1 at index 15. -/
abbrev codeTableWf (ct : CodeTable) : Prop :=
  ct[0] = 0xBF800000#32 ∧ ct[7] = 0x00000000#32 ∧ ct[15] = 0x3F800000#32 ∧
    (∀ i : Fin 16, isFinite (ct.get i) = true) ∧
    ∀ i : Fin 15, units (ct.get i.castSucc) < units (ct.get i.succ)

/-- The loop of `quantize_nearest` over the entries from index `i` on: `best` is replaced only by a strictly nearer
entry, so a tie keeps the smaller index (R79, R80). Distances are exact, in multiples of `2^-149`. -/
def nearestLoop (v : Int) (best : U4) (bestDist : Nat) : Nat → List Num32 → U4
  | _, [] => best
  | i, c :: cs =>
    if (units c - v).natAbs < bestDist then nearestLoop v (BitVec.ofNat 4 i) (units c - v).natAbs (i + 1) cs
    else nearestLoop v best bestDist (i + 1) cs

/-- `quantize_nearest(v)` over the table `ct` (R79). -/
def quantizeNearest (ct : CodeTable) (v : Num32) : U4 :=
  if isFinite v then
    nearestLoop (units v) 0 (units ct[0] - units v).natAbs 1 ct.toList.tail
  else Config.openNearest v

/-- `dequantize(i)`: the word of the ROM, bit for bit (R82). A `u4` is always in range. -/
def dequantize (ct : CodeTable) (i : U4) : Num32 := ct.get i.toFin

/-- The loop of `quantize_ceil` over the entries from index `i` on (R83). -/
def ceilLoop (v : Int) : Nat → List Num32 → U4
  | _, [] => 15
  | i, c :: cs => if v ≤ units c then BitVec.ofNat 4 i else ceilLoop v (i + 1) cs

/-- `quantize_ceil(v)` over the table `ct` (R83). -/
def quantizeCeil (ct : CodeTable) (v : Num32) : U4 :=
  if isFinite v then ceilLoop (units v) 0 ct.toList else Config.openCeil v

/-- QNEAREST; it cannot fail (R84). -/
def execQnearest (s : State) : Result := guarded s [] (setRI (quantizeNearest s.params.codeTable s.regXV))

/-- DEQUANT (R85). -/
def execDequant (s : State) : Result :=
  guarded s (dequantChecks s) (setRV (dequantize s.params.codeTable (s.regXI.setWidth 4)))

/-- QCEIL; it cannot fail (R86). -/
def execQceil (s : State) : Result := guarded s [] (setRI (quantizeCeil s.params.codeTable s.regXV))

end Sys2Proof.Machine
end

