-- ==== Sys2Proof/Machine/Packer.lean ====
section
/-! DEFINITION. The nibble packer: pack, unpack, PACK and UNPACK (43_packer.md). -/

namespace Sys2Proof.Machine

/-- One byte: the code of the even index in the high nibble, of the odd index in the low one (R89, 20_memory.md
R38). -/
def packByte (hi lo : U4) : U8 := (hi.setWidth 8 <<< 4) ||| lo.setWidth 8

/-- `pack(C)`, for an even number of codes (R89). -/
def packCodes : List U4 → List U8
  | hi :: lo :: rest => packByte hi lo :: packCodes rest
  | [_] => []
  | [] => []

/-- `P[k][7:4]` (R90). -/
def highNibble (y : U8) : U4 := (y >>> 4).setWidth 4

/-- `P[k][3:0]` (R90). -/
def lowNibble (y : U8) : U4 := (y &&& 0x0F#8).setWidth 4

/-- `unpack(P)` (R90). -/
def unpackBytes : List U8 → List U4
  | [] => []
  | y :: ys => highNibble y :: lowNibble y :: unpackBytes ys

/-- PACK (R92). -/
def execPack (s : State) : Result := guarded s (packChecks s) (setPK (packCodes s.cd))

/-- UNPACK; it cannot fail (R93). -/
def execUnpack (s : State) : Result := guarded s [] (setCD (unpackBytes s.pk))

end Sys2Proof.Machine
end

