-- ==== Sys2Proof/Machine/Block.lean ====
section
/-! DEFINITION. The BlockStatistics unit: absmax_per_block and ABSMAX (40_block_statistics.md). -/

namespace Sys2Proof.Machine

/-- The first `n` blocks of `k` elements, contiguous and in order (20_memory.md R37). -/
def blocksOf {α : Type} (k : Nat) : Nat → List α → List (List α)
  | 0, _ => []
  | n + 1, xs => xs.take k :: blocksOf k n (xs.drop k)

/-- The absmax of one block: `fabs` of its first element, then `fmax` with `fabs` of each later one (R61). -/
def blockAbsmax : List Num32 → Num32
  | [] => 0
  | x :: xs => xs.foldl (fun m y => fmax m (fabs y)) (fabs x)

/-- `absmax_per_block(X, k)` (R61). -/
def absmaxPerBlock (xs : List Num32) (k : Nat) : List Num32 := (blocksOf k (xs.length / k) xs).map blockAbsmax

/-- ABSMAX (R63). -/
def execAbsmax (s : State) : Result :=
  guarded s (absmaxChecks s) (setVR (absmaxPerBlock s.va s.regK.toNat))

end Sys2Proof.Machine
end

