-- ==== Sys2Proof/Machine/Scaler.lean ====
section
/-! DEFINITION. The ScalerCodec unit: compress, decompress, SCOMPRESS and SDECOMPRESS (41_scaler_codec.md). -/

namespace Sys2Proof.Machine

/-- What `compress` returns (R70). -/
structure Compressed where
  codes : List I8
  factors : List Num32
  mean : Num32
  deriving DecidableEq, Repr

/-- The factor of a chunk of absmax `a`: 1.0 for the degenerate chunk, else `256 / (2 * a)`. An absmax that is not
finite, and a factor that comes out zero, infinite or NaN, have no meaning (R68, 93 U3). -/
def chunkFactor (a : Num32) : Num32 :=
  if isZero a then 0x3F800000#32
  else
    let f := fdiv 0x43800000#32 (fmul 0x40000000#32 a)
    if isFinite a && isFinite (fmul 0x40000000#32 a) && isFinite f && !isZero f then f
    else Config.openFactor a

/-- Step 1: the scales less their mean (R66). -/
def centered (scales : List Num32) : List Num32 := scales.map fun x => fsub x (meanFn scales)

/-- Steps 2 to 4: one factor per chunk (R67, R68). -/
def chunkFactors (cs : List Num32) (k : Nat) : List Num32 := (absmaxPerBlock cs k).map chunkFactor

/-- Step 5: one code per scale (R69). -/
def scalerCodes (cs factors : List Num32) (k : Nat) : List I8 :=
  cs.mapIdx fun i c => sat8 (rint (fmul c (factors.getD (i / k) 0)))

/-- `compress(scales, s)` (R65 to R70). A code loses at most 1/2 by `rint`, or 1 where `sat8` cuts 128 to 127; a
degenerate chunk loses nothing (R72). -/
def compress (scales : List Num32) (k : Nat) : Compressed :=
  let cs := centered scales
  let factors := chunkFactors cs k
  { codes := scalerCodes cs factors k, factors := factors, mean := meanFn scales }

/-- `decompress(Q, F, s, mean)` (R71): not an exact inverse of `compress` (R72). -/
def decompress (codes : List I8) (factors : List Num32) (k : Nat) (mean : Num32) : List Num32 :=
  codes.mapIdx fun i q => fadd (fdiv (i2f q.toInt) (factors.getD (i / k) 0)) mean

/-- What SCOMPRESS writes (R75). -/
def scompressEffect (s : State) : State :=
  let c := compress s.va s.regK.toNat
  setScaler c.codes c.factors c.mean s

/-- SCOMPRESS (R75). -/
def execScompress (s : State) : Result := guarded s (scompressChecks s) scompressEffect

/-- SDECOMPRESS (R76). -/
def execSdecompress (s : State) : Result :=
  guarded s (sdecompressChecks s) (setVR (decompress s.sq s.sf s.regK.toNat s.regSM))

end Sys2Proof.Machine
end

