-- ==== Sys2Proof/Machine/Codec.lean ====
section
/-! DEFINITION. The PackedWeightCodec sequencer: ENCODE and DECODE (44_packed_weight_codec.md). -/

namespace Sys2Proof.Machine

/-- `normalize`: `+0` in an all-zero block, else the quotient by the exact block scale (R97). -/
def normalize (x scale : Num32) : Num32 := if isZero scale then 0 else fdiv x scale

/-- Step 4 and 5 of ENCODE: every element normalized by its block's scale and quantized (R96). -/
def elementCodes (ct : CodeTable) (xs scales : List Num32) (k : Nat) : List U4 :=
  xs.mapIdx fun i x => quantizeNearest ct (normalize x (scales.getD (i / k) 0))

/-- The computation of ENCODE: the aggregate it bundles (R96, R98). -/
def encodeAggregate (fmt : RawFmt) (ct : CodeTable) (raw : List F16) (shape : List Word) (b k : Word) :
    Aggregate :=
  let xs := raw.map (widen fmt)
  let scales := absmaxPerBlock xs b.toNat
  let c := compress scales k.toNat
  { blockSize := b
    scalerBlockSize := k
    originalShape := shape
    quantizedScalers := c.codes
    quantizationFactor := c.factors
    scalerMean := c.mean
    packedBytes := packCodes (elementCodes ct xs scales b.toNat) }

/-- The computation of DECODE: unpack, look up, multiply by the recovered scale of the element's block, narrow
(R99). -/
def decodeValues (fmt : RawFmt) (ct : CodeTable) (w : Aggregate) : List F16 :=
  let scales := decompress w.quantizedScalers w.quantizationFactor w.scalerBlockSize.toNat w.scalerMean
  (unpackBytes w.packedBytes).mapIdx fun i code =>
    narrow fmt (fmul (dequantize ct code) (scales.getD (i / w.blockSize.toNat) 0))

/-- ENCODE (R96). -/
def execEncode (s : State) : Result :=
  guarded s (encodeChecks s)
    (setW (encodeAggregate s.params.rawFmt s.params.codeTable s.raw s.shape s.regB s.regS))

/-- DECODE (R99). -/
def execDecode (s : State) : Result :=
  guarded s (decodeChecks s.w)
    (setOut (decodeValues s.params.rawFmt s.params.codeTable s.w) s.w.originalShape)

end Sys2Proof.Machine
end

