-- ==== Sys2Proof/Machine/Dispatch.lean ====
section
/-! DEFINITION. The meaning of every command, one arm each (30_encoding.md R55). -/

namespace Sys2Proof.Machine

open Sys2Proof

def exec (i : Instr) (s : State) : Host.Outcome State Fault Refusal :=
  match i with
  | .absmax => Sys2Proof.Machine.execAbsmax s
  | .scompress => Sys2Proof.Machine.execScompress s
  | .sdecompress => Sys2Proof.Machine.execSdecompress s
  | .qnearest => Sys2Proof.Machine.execQnearest s
  | .dequant => Sys2Proof.Machine.execDequant s
  | .qceil => Sys2Proof.Machine.execQceil s
  | .pack => Sys2Proof.Machine.execPack s
  | .unpack => Sys2Proof.Machine.execUnpack s
  | .encode => Sys2Proof.Machine.execEncode s
  | .decode => Sys2Proof.Machine.execDecode s

end Sys2Proof.Machine
end

