-- ==== Sys2Proof/Machine/Port.lean ====
section
/-! DEFINITION. The host port: what each move from outside does (20_memory.md R43, 70_reset_and_hazards.md R126). -/

namespace Sys2Proof.Machine

/-- A write of the word `c` to CMD executes one command, or reports an illegal word (30_encoding.md R51, R56). -/
def runWord (c : Word) (s : State) : Result :=
  match decode c with
  | .ok i => exec i s
  | .error _ => .next (illegalCommand c s)

/-- HostWriteReg(n, v): register 0 is CMD, any other is stored or ignored (20_memory.md R43). -/
def writeReg (n : Nat) (v : Word) (s : State) : Result :=
  if n = 0 then runWord v s else .next (storeReg s n v)

/-- One move from outside, as one atomic step (20_memory.md R43 to R45, R48). -/
def perform (m : HostMove) (s : State) : Result :=
  match m with
  | .writeReg n v => writeReg n v s
  | .readReg n => .next (answer (.word (readReg s n)) s)
  | .memWrite n x => memWrite n x s
  | .memRead n i => memRead n i s
  | .memLen n => memLen n s
  | .loadW w => loadW w s
  | .reset => .next (resetEvent s)

/-- Takes the oldest pending move and performs it; with none pending the block is idle and nothing changes
(10_state.md R19, 70_reset_and_hazards.md R126). -/
def takeMove (s : State) : Result :=
  match s.inbox with
  | [] => .next s
  | m :: rest => perform m { s with inbox := rest }

/-- The host write of CMD that gives the block the instruction whose bits are `w` (bits above `nbits` zero). -/
def commandWrite (nbits w : Nat) : HostMove := .writeReg 0 (BitVec.ofNat 32 (w % 2 ^ nbits))

end Sys2Proof.Machine
end

