-- ==== Sys2Proof/Machine/Step.lean ====
section
/-! DEFINITION. One step: the block takes the outside's next move (10_state.md R19, 20_memory.md R48). -/

namespace Sys2Proof.Machine

/-- One step of the machine. -/
def step (s : State) : Host.Outcome State Fault Refusal := takeMove s

/-- The state in which the next move is the host's write of the given instruction to CMD: nothing else changes. -/
def State.withFetchWord (s : State) (nbits w : Nat) : State :=
  { s with inbox := commandWrite nbits w :: s.inbox }

end Sys2Proof.Machine
end

