-- ==== Sys2Proof/Machine/System.lean ====
section
/-! DEFINITION. Several independent copies of the block (00_scope.md R10; 60_exceptions.md R121; 20_memory.md R50). -/

namespace Sys2Proof.Machine

/-- A system: its copies, each with all its state to itself (60_exceptions.md R121). -/
abbrev System := List State

/-- `NINST` copies right after reset. -/
def systemReset : System := List.replicate Config.ninst State.reset

/-- The copy of number `k` takes one step; none where there is no such copy or its move has no next state. -/
def systemStep (k : Nat) (sys : System) : Option System :=
  match sys[k]? with
  | none => none
  | some s =>
    match step s with
    | .next t => some (sys.set k t)
    | .fault _ => none
    | .refused _ => none

end Sys2Proof.Machine
end

