-- ==== Sys2Proof/Safety.lean ====
section
/-! DEFINITION. The terms in which claims about the block are stated: capacities, legal error registers, a
consistent aggregate, safe runs, what a command may read and write, and correct rounding. -/

namespace Sys2Proof.Machine

/-! ## Memory -/

/-- All fifteen spaces (10_state.md R21). -/
def allSpaces : List Space :=
  [.raw, .shape, .va, .vr, .sq, .sf, .cd, .pk, .wShape, .wQs, .wQf, .wPacked, .out, .outShape, .ct]

/-- Every buffer is within its capacity (10_state.md R21, 00_scope.md R10). A buffer is the list of its elements,
so equal contents are equal data and no other form is needed. -/
abbrev Memory.wf (s : State) : Prop :=
  ∀ sp ∈ allSpaces, payloadLength (bufferOf s sp) ≤ capacity s.params sp

/-! ## Errors -/

/-- The check ids each error code can stand with (60_exceptions.md R110, R113): 2 stands with none (R115). -/
def checksOfCode (code : Nat) : List Nat :=
  match code with
  | 1 => [1, 2, 3, 4, 5, 10, 20, 21, 22, 23, 24, 25, 26]
  | 3 => [9]
  | 4 => [6, 7, 8, 30, 31, 32, 33, 34, 35, 36]
  | 5 => [40]
  | _ => []

/-- What the error registers may hold: all zero, or a code with one of its checks (10_state.md R30;
60_exceptions.md R110, R113, R115). -/
abbrev legalErrors (e : ErrorRegs) : Prop :=
  e = ErrorRegs.clear ∨ e.errchk.toNat ∈ checksOfCode e.err.toNat

/-- A reported value that does not fit 32 bits is replaced by `2^32 - 1` and never wraps (60_exceptions.md R112;
00_scope.md R34(b)). -/
def cut32 (n : Nat) : Word := if n < 2 ^ 32 then BitVec.ofNat 32 n else 0xFFFFFFFF#32

/-- The four error registers as a command reports them: code, check, expected, found, the last two cut at `2^32 - 1`
(60_exceptions.md R112). -/
abbrev reported (code chk exp act : Nat) : ErrorRegs :=
  ⟨BitVec.ofNat 32 code, BitVec.ofNat 32 chk, cut32 exp, cut32 act⟩

/-- The last command ended without error (10_state.md R30). -/
abbrev noError (s : State) : Prop := s.errors.err = 0

/-- `n` steps that all have a next state, and after each of which ERR is 0: the run-wide premise the hardware does
not keep itself (60_exceptions.md R118). -/
def safeRun : Nat → State → Prop
  | 0, s => noError s
  | n + 1, s => noError s ∧ ∃ t, step s = .next t ∧ safeRun n t

/-! ## The aggregate -/

/-- The lengths of a well-formed aggregate (10_state.md R23), with positive sizes and dimensions; the product of the
dimensions is 1 where there are none (00_scope.md R12). -/
abbrev consistent (w : Aggregate) : Prop :=
  let numel := 2 * w.packedBytes.length
  0 < w.blockSize.toNat ∧ 0 < w.scalerBlockSize.toNat ∧ (∀ d ∈ w.originalShape, d ≠ 0) ∧
    (w.originalShape.map BitVec.toNat).prod = numel ∧ numel % w.blockSize.toNat = 0 ∧
    w.quantizedScalers.length = numel / w.blockSize.toNat ∧
    w.quantizedScalers.length % w.scalerBlockSize.toNat = 0 ∧
    w.quantizationFactor.length = w.quantizedScalers.length / w.scalerBlockSize.toNat

/-! ## What a command reads and writes (10_state.md R20, R21) -/

/-- The two states agree on every item the columns 'read by command' list for the command. -/
def readsAgree (i : Instr) (s t : State) : Prop :=
  match i with
  | .absmax => s.va = t.va ∧ s.regK = t.regK
  | .scompress => s.va = t.va ∧ s.regK = t.regK
  | .sdecompress => s.sq = t.sq ∧ s.sf = t.sf ∧ s.regK = t.regK ∧ s.regSM = t.regSM
  | .qnearest => s.regXV = t.regXV ∧ s.params.codeTable = t.params.codeTable
  | .dequant => s.regXI = t.regXI ∧ s.params.codeTable = t.params.codeTable
  | .qceil => s.regXV = t.regXV ∧ s.params.codeTable = t.params.codeTable
  | .pack => s.cd = t.cd
  | .unpack => s.pk = t.pk
  | .encode =>
    s.raw = t.raw ∧ s.shape = t.shape ∧ s.regB = t.regB ∧ s.regS = t.regS ∧
      s.params.rawFmt = t.params.rawFmt ∧ s.params.codeTable = t.params.codeTable
  | .decode => s.w = t.w ∧ s.params.rawFmt = t.params.rawFmt ∧ s.params.codeTable = t.params.codeTable

/-- The two states agree on every item the columns 'written by command' list for the command, the error registers
aside. -/
def writesAgree (i : Instr) (s t : State) : Prop :=
  match i with
  | .absmax => s.vr = t.vr
  | .scompress => s.sq = t.sq ∧ s.sf = t.sf ∧ s.regSM = t.regSM
  | .sdecompress => s.vr = t.vr
  | .qnearest => s.regRI = t.regRI
  | .dequant => s.regRV = t.regRV
  | .qceil => s.regRI = t.regRI
  | .pack => s.pk = t.pk
  | .unpack => s.cd = t.cd
  | .encode => s.w = t.w
  | .decode => s.out = t.out ∧ s.outShape = t.outShape

/-- Nothing differs between the two states but the items the columns 'written by command' list for the command, and
the error registers. -/
def writesOnly (i : Instr) (s t : State) : Prop :=
  match i with
  | .absmax => t = { s with vr := t.vr, errors := t.errors }
  | .scompress => t = { s with sq := t.sq, sf := t.sf, regSM := t.regSM, errors := t.errors }
  | .sdecompress => t = { s with vr := t.vr, errors := t.errors }
  | .qnearest => t = { s with regRI := t.regRI, errors := t.errors }
  | .dequant => t = { s with regRV := t.regRV, errors := t.errors }
  | .qceil => t = { s with regRI := t.regRI, errors := t.errors }
  | .pack => t = { s with pk := t.pk, errors := t.errors }
  | .unpack => t = { s with cd := t.cd, errors := t.errors }
  | .encode => t = { s with w := t.w, errors := t.errors }
  | .decode => t = { s with out := t.out, outShape := t.outShape, errors := t.errors }

/-- The ten command words of 30_encoding.md R55, column 'match', copied literally. -/
def commandWord : Instr → Word
  | .absmax => 0x00000010#32
  | .scompress => 0x00000020#32
  | .sdecompress => 0x00000021#32
  | .qnearest => 0x00000030#32
  | .dequant => 0x00000031#32
  | .qceil => 0x00000032#32
  | .pack => 0x00000040#32
  | .unpack => 0x00000041#32
  | .encode => 0x00000050#32
  | .decode => 0x00000051#32

/-! ## Correct rounding (00_scope.md R14, R15) -/

/-- From this magnitude on a result rounds beyond the largest finite binary32 value: that value and half a unit in
its last place. -/
def overflow32 : ℚ := 2 ^ 128 - 2 ^ 103

/-- `r` is the binary32 value nearest to `q`, ties to an even fraction field, infinity of `q`'s sign beyond the
largest finite value (R15). -/
def roundsTo (q : ℚ) (r : Num32) : Prop :=
  if |q| < overflow32 then
    isFinite r = true ∧
      ∀ c : Num32, isFinite c = true → real c ≠ real r →
        |real r - q| < |real c - q| ∨ (|real r - q| = |real c - q| ∧ r.getLsbD 0 = false)
  else r = if q < 0 then 0xFF800000#32 else 0x7F800000#32

/-- The same threshold for the 16-bit formats (R14). -/
def overflow16 : RawFmt → ℚ
  | .binary16 => 65520
  | .bfloat16 => 2 ^ 128 - 2 ^ 119

/-- Infinity of the 16-bit formats, without sign (R14). -/
def infinity16 : RawFmt → F16
  | .binary16 => 0x7C00#16
  | .bfloat16 => 0x7F80#16

/-- `r` is the `F16` value nearest to `q`, ties to an even fraction field, infinity of `q`'s sign beyond the largest
finite value (R14). -/
def roundsTo16 (fmt : RawFmt) (q : ℚ) (r : F16) : Prop :=
  if |q| < overflow16 fmt then
    isFinite16 fmt r = true ∧
      ∀ c : F16, isFinite16 fmt c = true → real16 fmt c ≠ real16 fmt r →
        |real16 fmt r - q| < |real16 fmt c - q| ∨ (|real16 fmt r - q| = |real16 fmt c - q| ∧ r.getLsbD 0 = false)
  else r = if q < 0 then infinity16 fmt ||| 0x8000#16 else infinity16 fmt

/-- Entry `i` of a CodeTable, by a number below 16 (42_element_codec.md R78). -/
def tableWord (ct : CodeTable) (i : Nat) : Num32 := ct.toList.getD i 0

/-- The sixteen decimal literals of the CodeTable (42_element_codec.md R77). -/
def tableLiteral : List ℚ :=
  [-1, -6962 / 10000, -5251 / 10000, -3949 / 10000, -2844 / 10000, -1848 / 10000, -911 / 10000, 0,
   796 / 10000, 1609 / 10000, 2461 / 10000, 3379 / 10000, 4407 / 10000, 5626 / 10000, 7230 / 10000, 1]

/-- The midpoint between two neighbouring entries of a CodeTable (42_element_codec.md R81). -/
def midpoint (ct : CodeTable) (i : Nat) : ℚ := (real (tableWord ct i) + real (tableWord ct (i + 1))) / 2

end Sys2Proof.Machine
end

