-- ==== Sys2Proof/Certificates/Slice0/Obligations.lean ====
section
/-! DEFINITION. The statements for the provers, from the numbered rules of spec/. Each names its rule; OBLIGATIONS.json
lists them. -/

open Sys2Proof Sys2Proof.Machine

/-! ## Encoding -/

/-- 30_encoding.md R53, R55: a word is legal exactly when bits 31:8 are 0 and bits 7:0 are one of the ten opcodes, and
a legal word selects the command whose `match` it equals. -/
def Obligations.LegalWordsSelectTheirCommand : Prop :=
  (∀ c : Word, (∃ i, decode c = .ok i) ↔
    (c.toNat / 256 = 0 ∧
      c.toNat % 256 ∈ [0x10, 0x20, 0x21, 0x30, 0x31, 0x32, 0x40, 0x41, 0x50, 0x51])) ∧
  ∀ (c : Word) (i : Instr), decode c = .ok i ↔ c = commandWord i

/-- 30_encoding.md R51, R53: decoding and encoding agree in both directions, for every word and every command. -/
def Obligations.DecodeAndEncodeAgree : Prop :=
  (∀ (c : Word) (i : Instr), decode c = .ok i ↔ c = encode i) ∧
  ∀ c : Word, (∃ i, decode c = .ok i) ↔ legalWord c = true

/-- Sanity: command words written out from 30_encoding.md R55 decode to their commands, and words with one wrong field
are rejected by name (R56). -/
def Obligations.SpecWordsDecode : Prop :=
  decode 0x00000010#32 = .ok .absmax ∧ decode 0x00000021#32 = .ok .sdecompress ∧
  decode 0x00000032#32 = .ok .qceil ∧ decode 0x00000041#32 = .ok .unpack ∧
  decode 0x00000050#32 = .ok .encode ∧ decode 0x00000150#32 = .error .zeroField ∧
  decode 0x00000060#32 = .error .noSuchUnit ∧ decode 0x00000033#32 = .error .noSuchFunction

/-- 60_exceptions.md R116, 30_encoding.md R56: a word that is none of the ten sets 5 / 40 / 0 / the word and changes
nothing else. -/
def Obligations.IllegalWordOnlySetsErrors : Prop :=
  ∀ (s : State) (c : Word) (rest : List HostMove),
    s.inbox = .writeReg 0 c :: rest → (∀ i : Instr, c ≠ commandWord i) →
      step s = .next { s with inbox := rest, errors := ⟨5, 40, 0, c⟩ }

/-! ## One step -/

/-- 10_state.md R19, 30_encoding.md R51: a write of a legal word to CMD runs exactly the decoded command, on the state
with that move taken; so does the word placed by withFetchWord. -/
def Obligations.StepRunsDecodedCommand : Prop :=
  (∀ (s : State) (c : Word) (i : Instr) (rest : List HostMove),
    s.inbox = .writeReg 0 c :: rest → decode c = .ok i → step s = exec i { s with inbox := rest }) ∧
  ∀ (s : State) (nbits w : Nat) (i : Instr),
    decodeTableWord nbits w = some i → step (s.withFetchWord nbits w) = exec i s

/-- 10_state.md R19, 70_reset_and_hazards.md R126: with no move pending the block is idle and nothing changes. That an
idle step is a next state is the model's choice (log entry 1). -/
def Obligations.IdleStepChangesNothing : Prop :=
  ∀ s : State, s.inbox = [] → step s = .next s

/-- 10_state.md R20, 20_memory.md R43: HostWriteReg stores B, S, K, XV, XI, SM and is ignored on every other register
number but 0. -/
def Obligations.HostWriteRegStoresOnlyWritable : Prop :=
  ∀ (s : State) (n : Nat) (v : Word) (rest : List HostMove),
    s.inbox = .writeReg n v :: rest → n ≠ 0 →
      ∃ t, step s = .next t ∧
        t = { s with
          inbox := rest
          regB := if n = 5 then v else s.regB
          regS := if n = 6 then v else s.regS
          regK := if n = 7 then v else s.regK
          regXV := if n = 8 then v else s.regXV
          regXI := if n = 9 then v else s.regXI
          regSM := if n = 12 then v else s.regSM }

/-- 10_state.md R20, 20_memory.md R43: HostReadReg returns registers 1 to 15 by number, 0 for CMD and for every number
from 16 on, and changes nothing of the block. -/
def Obligations.HostReadRegReturnsByNumber : Prop :=
  ∀ (s : State) (n : Nat) (rest : List HostMove),
    s.inbox = .readReg n :: rest →
      step s = .next { s with
        inbox := rest
        replies := s.replies ++ [.word
          ([0, s.errors.err, s.errors.errchk, s.errors.errexp, s.errors.erract, s.regB, s.regS, s.regK, s.regXV,
            s.regXI, s.regRV, s.regRI, s.regSM, s.w.blockSize, s.w.scalerBlockSize, s.w.scalerMean].getD n 0)] }

/-- 20_memory.md R43, R44: MemWrite replaces the contents and the length of the seven host-writable spaces and is
ignored on the eight others, whatever is written. -/
def Obligations.MemWriteReplacesWholeBuffer : Prop :=
  ∀ (s : State) (rest : List HostMove),
    (∀ xs, s.inbox = .memWrite 0 (.f16 xs) :: rest → xs.length ≤ s.params.nmax →
      step s = .next { s with inbox := rest, raw := xs }) ∧
    (∀ xs, s.inbox = .memWrite 1 (.u32 xs) :: rest → xs.length ≤ s.params.rankMax →
      step s = .next { s with inbox := rest, shape := xs }) ∧
    (∀ xs, s.inbox = .memWrite 2 (.num xs) :: rest → xs.length ≤ s.params.nmax →
      step s = .next { s with inbox := rest, va := xs }) ∧
    (∀ xs, s.inbox = .memWrite 4 (.i8 xs) :: rest → xs.length ≤ s.params.nmax →
      step s = .next { s with inbox := rest, sq := xs }) ∧
    (∀ xs, s.inbox = .memWrite 5 (.num xs) :: rest → xs.length ≤ s.params.nmax →
      step s = .next { s with inbox := rest, sf := xs }) ∧
    (∀ xs, s.inbox = .memWrite 6 (.u4 xs) :: rest → xs.length ≤ s.params.nmax →
      step s = .next { s with inbox := rest, cd := xs }) ∧
    (∀ xs, s.inbox = .memWrite 7 (.u8 xs) :: rest → xs.length ≤ s.params.nmax / 2 →
      step s = .next { s with inbox := rest, pk := xs }) ∧
    ∀ n x, n ∈ [3, 8, 9, 10, 11, 12, 13, 14] → s.inbox = .memWrite n x :: rest →
      step s = .next { s with inbox := rest }

/-- 20_memory.md R44, 10_state.md R21, R22: MemRead returns the element, or 0 at or beyond the length, and MemLen the
length, of each of the fifteen spaces; neither changes the block. -/
def Obligations.MemReadReturnsElementOrZero : Prop :=
  ∀ (s : State) (rest : List HostMove) (n : Nat) (x : Payload),
    (n, x) ∈ [(0, .f16 s.raw), (1, .u32 s.shape), (2, .num s.va), (3, .num s.vr), (4, .i8 s.sq), (5, .num s.sf),
      (6, .u4 s.cd), (7, .u8 s.pk), (8, .u32 s.w.originalShape), (9, .i8 s.w.quantizedScalers),
      (10, .num s.w.quantizationFactor), (11, .u8 s.w.packedBytes), (12, .f16 s.out), (13, .u32 s.outShape),
      (14, Payload.num s.params.codeTable.toList)] →
    (∀ i, s.inbox = .memRead n i :: rest →
      step s = .next { s with
        inbox := rest
        replies := s.replies ++ [.elem (match x with
          | .f16 xs => .f16 (if h : i < xs.length then xs[i] else 0)
          | .u32 xs => .u32 (if h : i < xs.length then xs[i] else 0)
          | .num xs => .num (if h : i < xs.length then xs[i] else 0)
          | .i8 xs => .i8 (if h : i < xs.length then xs[i] else 0)
          | .u4 xs => .u4 (if h : i < xs.length then xs[i] else 0)
          | .u8 xs => .u8 (if h : i < xs.length then xs[i] else 0))] }) ∧
    (s.inbox = .memLen n :: rest →
      step s = .next { s with inbox := rest, replies := s.replies ++ [.length (payloadLength x)] })

/-- 20_memory.md R45: HostLoadW replaces the seven fields of W at once, performs no check but capacity, and does not
change ERR or anything else. -/
def Obligations.LoadWReplacesAggregate : Prop :=
  ∀ (s : State) (w : Aggregate) (rest : List HostMove),
    s.inbox = .loadW w :: rest →
      w.originalShape.length ≤ s.params.rankMax → w.quantizedScalers.length ≤ s.params.nmax →
      w.quantizationFactor.length ≤ s.params.nmax → w.packedBytes.length ≤ s.params.nmax / 2 →
        step s = .next { s with inbox := rest, w := w }

/-- 93_implementation_defined.md U11, 20_memory.md R35, R43, R44: the host moves that have no next state: a space number
above 14, a MemWrite beyond the capacity of each of the seven host-writable spaces, a MemWrite of another element type
to one of them, whatever its length, and a HostLoadW beyond a capacity. That the first is a fault and the others
refusals is the model's choice (log entry 6). -/
def Obligations.UndefinedHostMovesStop : Prop :=
  ∀ (s : State) (rest : List HostMove) (n : Nat),
    (14 < n → ∀ x i,
      (s.inbox = .memWrite n x :: rest → step s = .fault (.noSuchSpace n)) ∧
      (s.inbox = .memRead n i :: rest → step s = .fault (.noSuchSpace n)) ∧
      (s.inbox = .memLen n :: rest → step s = .fault (.noSuchSpace n))) ∧
    (∀ x, s.inbox = .memWrite n x :: rest →
      ((n = 0 ∧ ∃ xs, x = .f16 xs ∧ s.params.nmax < xs.length) ∨
        (n = 1 ∧ ∃ xs, x = .u32 xs ∧ s.params.rankMax < xs.length) ∨
        (n = 2 ∧ ∃ xs, x = .num xs ∧ s.params.nmax < xs.length) ∨
        (n = 4 ∧ ∃ xs, x = .i8 xs ∧ s.params.nmax < xs.length) ∨
        (n = 5 ∧ ∃ xs, x = .num xs ∧ s.params.nmax < xs.length) ∨
        (n = 6 ∧ ∃ xs, x = .u4 xs ∧ s.params.nmax < xs.length) ∨
        (n = 7 ∧ ∃ xs, x = .u8 xs ∧ s.params.nmax / 2 < xs.length)) →
      step s = .refused (.overCapacity n)) ∧
    (∀ x, s.inbox = .memWrite n x :: rest →
      ((n = 0 ∧ ∀ xs, x ≠ .f16 xs) ∨ (n = 1 ∧ ∀ xs, x ≠ .u32 xs) ∨ (n = 2 ∧ ∀ xs, x ≠ .num xs) ∨
        (n = 4 ∧ ∀ xs, x ≠ .i8 xs) ∨ (n = 5 ∧ ∀ xs, x ≠ .num xs) ∨ (n = 6 ∧ ∀ xs, x ≠ .u4 xs) ∨
        (n = 7 ∧ ∀ xs, x ≠ .u8 xs)) →
      step s = .refused (.elementType n)) ∧
    ∀ w : Aggregate, s.inbox = .loadW w :: rest →
      (s.params.rankMax < w.originalShape.length ∨ s.params.nmax < w.quantizedScalers.length ∨
        s.params.nmax < w.quantizationFactor.length ∨ s.params.nmax / 2 < w.packedBytes.length) →
      step s = .refused .aggregateOverCapacity

/-- 10_state.md R31: the value of every register and buffer after reset, and the ROM; no command is pending. -/
def Obligations.ResetLeavesTabulatedValues : Prop :=
  State.reset.inbox = [] ∧ State.reset.errors = ⟨0, 0, 0, 0⟩ ∧
  (State.reset.regB = 0 ∧ State.reset.regS = 0 ∧ State.reset.regK = 0) ∧
  (State.reset.regXV = 0x00000000#32 ∧ State.reset.regRV = 0x00000000#32 ∧ State.reset.regSM = 0x00000000#32) ∧
  (State.reset.regXI = 0 ∧ State.reset.regRI = 0) ∧
  (State.reset.raw = [] ∧ State.reset.shape = [] ∧ State.reset.va = [] ∧ State.reset.vr = [] ∧ State.reset.sq = [] ∧
    State.reset.sf = [] ∧ State.reset.cd = [] ∧ State.reset.pk = [] ∧ State.reset.out = [] ∧
    State.reset.outShape = []) ∧
  State.reset.w = ⟨0, 0, [], [], [], 0x00000000#32, []⟩ ∧
  bufferOf State.reset .ct = .num
    [0xBF800000#32, 0xBF323A2A#32, 0xBF066CF4#32, 0xBECA3055#32, 0xBE919CE0#32, 0xBE3D3C36#32, 0xBDBA92A3#32,
     0x00000000#32, 0x3DA30553#32, 0x3E24C2F8#32, 0x3E7C01A3#32, 0x3EAD013B#32, 0x3EE1A36E#32, 0x3F10068E#32,
     0x3F391687#32, 0x3F800000#32]

/-- 70_reset_and_hazards.md R126, R127, derived: the reset event puts every register and buffer at its reset value,
whatever they held, and the CodeTable stays. That the moves still to come, the replies given and the OPEN parameters stay
across it too is the model's choice (log entry 12). -/
def Obligations.ResetEventRestoresReset : Prop :=
  ∀ (s : State) (rest : List HostMove), s.inbox = .reset :: rest →
    step s = .next { State.reset with params := s.params, inbox := rest, replies := s.replies }

/-! ## Numbers -/

/-- 00_scope.md R15, fadd: correctly rounded on finite operands; values that cancel give `+0`. -/
def Obligations.AdditionRoundsToNearestEven : Prop :=
  ∀ a b : Num32, isFinite a = true → isFinite b = true →
    roundsTo (real a + real b) (fadd a b) ∧
    (real a ≠ 0 → real a + real b = 0 → fadd a b = 0x00000000#32)

/-- 00_scope.md R15, fsub: correctly rounded on finite operands; values that cancel give `+0`. -/
def Obligations.SubtractionRoundsToNearestEven : Prop :=
  ∀ a b : Num32, isFinite a = true → isFinite b = true →
    roundsTo (real a - real b) (fsub a b) ∧
    (real a ≠ 0 → real a - real b = 0 → fsub a b = 0x00000000#32)

/-- 00_scope.md R15, fmul: correctly rounded on finite operands; an exact zero carries the exclusive-or of the operand
signs. -/
def Obligations.MultiplicationRoundsToNearestEven : Prop :=
  ∀ a b : Num32, isFinite a = true → isFinite b = true →
    roundsTo (real a * real b) (fmul a b) ∧
    (real a * real b = 0 → fmul a b = (a ^^^ b) &&& 0x80000000#32)

/-- 00_scope.md R15, fdiv: correctly rounded on finite operands with a divisor that is not zero; an exact zero carries
the exclusive-or of the operand signs. -/
def Obligations.DivisionRoundsToNearestEven : Prop :=
  ∀ a b : Num32, isFinite a = true → isFinite b = true → real b ≠ 0 →
    roundsTo (real a / real b) (fdiv a b) ∧
    (real a = 0 → fdiv a b = (a ^^^ b) &&& 0x80000000#32)

/-- 00_scope.md R15, R34(d), i2f: every integer is correctly rounded, exact up to `2^24` in magnitude, and 0 gives `+0`. -/
def Obligations.IntegerToNumRoundsToNearestEven : Prop :=
  ∀ n : Int, roundsTo (n : ℚ) (i2f n) ∧ (|n| ≤ 2 ^ 24 → real (i2f n) = n) ∧ (n = 0 → i2f n = 0x00000000#32)

/-- 00_scope.md R14: `widen` is exact for every finite `F16` of either format and keeps the sign. -/
def Obligations.WidenIsExact : Prop :=
  ∀ (fmt : RawFmt) (h : F16), isFinite16 fmt h = true →
    isFinite (widen fmt h) = true ∧ real (widen fmt h) = real16 fmt h ∧
      (widen fmt h).getLsbD 31 = h.getLsbD 15

/-- 00_scope.md R14: `narrow` of a finite `Num` is the nearest `F16` of either format, ties to even, infinity beyond
the largest finite value, of the same sign. -/
def Obligations.NarrowRoundsToNearestEven : Prop :=
  ∀ (fmt : RawFmt) (v : Num32), isFinite v = true →
    roundsTo16 fmt (real v) (narrow fmt v) ∧ (narrow fmt v).getLsbD 15 = v.getLsbD 31

/-- 00_scope.md R14, derived: narrowing a widened finite `F16` gives it back bit for bit. -/
def Obligations.NarrowUndoesWiden : Prop :=
  ∀ (fmt : RawFmt) (h : F16), isFinite16 fmt h = true → narrow fmt (widen fmt h) = h

/-- 00_scope.md R16: `rint` is the nearest integer, the even one on a half, and `sat8` clamps to `[-128, 127]`. -/
def Obligations.RintIsNearestEvenAndSat8Clamps : Prop :=
  (∀ v : Num32, isFinite v = true →
    |(rint v : ℚ) - real v| ≤ 1 / 2 ∧ (|(rint v : ℚ) - real v| = 1 / 2 → rint v % 2 = 0)) ∧
  ∀ n : Int, (n < -128 → (sat8 n).toInt = -128) ∧ (127 < n → (sat8 n).toInt = 127) ∧
    (-128 ≤ n → n ≤ 127 → (sat8 n).toInt = n)

/-! ## BlockStatistics -/

/-- 40_block_statistics.md R63, R61, derived: ABSMAX's two checks, and otherwise one result per block, the largest
magnitude of the block with sign bit 0; nothing but VR and the error registers changes. On a VA element that is not
finite, that the command runs, with a free result for its block, is the model's choice (log entry 3). -/
def Obligations.AbsmaxWritesBlockMaxima : Prop :=
  ∀ s : State,
    (s.regK = 0 → exec .absmax s = .next { s with errors := reported 1 1 1 0 }) ∧
    (s.regK ≠ 0 → s.va.length % s.regK.toNat ≠ 0 →
      exec .absmax s = .next { s with errors := reported 1 2 s.regK.toNat s.va.length }) ∧
    (s.regK ≠ 0 → s.va.length % s.regK.toNat = 0 →
      ∃ vr : List Num32,
        exec .absmax s = .next { s with vr := vr, errors := ⟨0, 0, 0, 0⟩ } ∧
        vr.length = s.va.length / s.regK.toNat ∧
        ∀ j < s.va.length / s.regK.toNat,
          (∀ i < s.regK.toNat, isFinite (s.va.getD (j * s.regK.toNat + i) 0) = true) →
            (∃ i < s.regK.toNat, vr.getD j 0 = s.va.getD (j * s.regK.toNat + i) 0 &&& 0x7FFFFFFF#32) ∧
            ∀ i < s.regK.toNat, |real (s.va.getD (j * s.regK.toNat + i) 0)| ≤ real (vr.getD j 0))

/-! ## ScalerCodec -/

/-- 41_scaler_codec.md R75, R65 to R70, derived: SCOMPRESS's three checks, and otherwise one mean, one factor per chunk (1.0 for
the degenerate chunk), one clamped and rounded code per scale; nothing but SQ, SF, SM and the error registers
changes. On a VA element that is not finite, and on a factor to which R68 gives no meaning, that the command runs with a
free value is the model's choice (log entries 3 and 4). -/
def Obligations.ScompressWritesCodesFactorsMean : Prop :=
  ∀ s : State,
    (s.va.length = 0 → exec .scompress s = .next { s with errors := reported 1 3 1 0 }) ∧
    (s.va.length ≠ 0 → s.regK = 0 → exec .scompress s = .next { s with errors := reported 1 4 1 0 }) ∧
    (s.va.length ≠ 0 → s.regK ≠ 0 → s.va.length % s.regK.toNat ≠ 0 →
      exec .scompress s = .next { s with errors := reported 1 5 s.regK.toNat s.va.length }) ∧
    (s.va.length ≠ 0 → s.regK ≠ 0 → s.va.length % s.regK.toNat = 0 →
      ∃ (mean : Num32) (q : List I8) (f : List Num32),
        exec .scompress s = .next { s with sq := q, sf := f, regSM := mean, errors := ⟨0, 0, 0, 0⟩ } ∧
        mean = fdiv (s.va.foldl fadd 0x00000000#32) (i2f s.va.length) ∧
        q.length = s.va.length ∧ f.length = s.va.length / s.regK.toNat ∧
        (∀ c < s.va.length / s.regK.toNat, ∀ a,
          a = (absmaxPerBlock (s.va.map fun x => fsub x mean) s.regK.toNat).getD c 0 →
          (isZero a = true → f.getD c 0 = 0x3F800000#32) ∧
          (isZero a = false → isFinite a = true → isFinite (fmul 0x40000000#32 a) = true →
            isFinite (fdiv 0x43800000#32 (fmul 0x40000000#32 a)) = true →
            isZero (fdiv 0x43800000#32 (fmul 0x40000000#32 a)) = false →
              f.getD c 0 = fdiv 0x43800000#32 (fmul 0x40000000#32 a))) ∧
        ∀ i < s.va.length,
          q.getD i 0 = sat8 (rint (fmul (fsub (s.va.getD i 0) mean) (f.getD (i / s.regK.toNat) 0))))

/-- 41_scaler_codec.md R76, R71, derived: SDECOMPRESS's three checks, and otherwise one recovered scale per code, the
code divided by its chunk's factor plus the mean; nothing but VR and the error registers changes. A factor of zero,
infinity or NaN, and a mean that is not finite, has no meaning there: that the command runs with a free value is the
model's choice (log entries 3 and 5). -/
def Obligations.SdecompressWritesRecoveredScales : Prop :=
  ∀ s : State,
    (s.regK = 0 → exec .sdecompress s = .next { s with errors := reported 4 6 1 0 }) ∧
    (s.regK ≠ 0 → s.sq.length % s.regK.toNat ≠ 0 →
      exec .sdecompress s = .next { s with errors := reported 4 7 s.regK.toNat s.sq.length }) ∧
    (s.regK ≠ 0 → s.sq.length % s.regK.toNat = 0 → s.sf.length ≠ s.sq.length / s.regK.toNat →
      exec .sdecompress s =
        .next { s with errors := reported 4 8 (s.sq.length / s.regK.toNat) s.sf.length }) ∧
    (s.regK ≠ 0 → s.sq.length % s.regK.toNat = 0 → s.sf.length = s.sq.length / s.regK.toNat →
      ∃ vr : List Num32,
        exec .sdecompress s = .next { s with vr := vr, errors := ⟨0, 0, 0, 0⟩ } ∧
        vr.length = s.sq.length ∧
        ∀ i < s.sq.length,
          vr.getD i 0 =
            fadd (fdiv (i2f (s.sq.getD i 0).toInt) (s.sf.getD (i / s.regK.toNat) 0)) s.regSM)

/-- 41_scaler_codec.md R72, derived: the round trip of a scale. A code differs from its product by at most 1/2, or by 1
in the one clamped case. SDECOMPRESS right after a successful SCOMPRESS ends without error; a scale of a degenerate chunk
comes back as it was, and a scale `x` of a chunk of absmax `a` comes back within `a / 128`, or `a / 256` where its centered
value is not within `a / 256` of `+a`, each up to `δ`, the errors of the binary32 roundings of R66 to R71: the difference
`v`, the factor `f` of `128 / a`, the product `p`, the quotient `d` and the sum `r`. The last clause is the example of
R75 and R76: the round trip is lossy. -/
def Obligations.ScaleRoundTripIsLossyAndBounded : Prop :=
  (∀ p : Num32, isFinite p = true → |real p| ≤ 128 →
    |((sat8 (rint p)).toInt : ℚ) - real p| ≤ 1 ∧
    (real p ≤ 255 / 2 → |((sat8 (rint p)).toInt : ℚ) - real p| ≤ 1 / 2)) ∧
  (∀ s t : State, exec .scompress s = .next t → t.errors = ⟨0, 0, 0, 0⟩ →
    ∃ u : State, exec .sdecompress t = .next u ∧ u.errors = ⟨0, 0, 0, 0⟩ ∧ u.vr.length = s.va.length ∧
      ∀ (i k : Nat) (mean x v a f p d r : Num32) (q : ℚ),
        i < s.va.length → k = s.regK.toNat → mean = t.regSM → x = s.va.getD i 0 → v = fsub x mean →
        a = (absmaxPerBlock (s.va.map fun y => fsub y mean) k).getD (i / k) 0 → f = t.sf.getD (i / k) 0 →
        p = fmul v f → q = (t.sq.getD i 0).toInt → d = fdiv (i2f (t.sq.getD i 0).toInt) f → r = u.vr.getD i 0 →
        isFinite mean = true →
        (∀ j < k, isFinite (s.va.getD (i / k * k + j) 0) = true ∧
          isFinite (fsub (s.va.getD (i / k * k + j) 0) mean) = true) →
          (isZero a = true → real r = real x) ∧
          (isZero a = false → isFinite (fmul 0x40000000#32 a) = true →
            isFinite (fdiv 0x43800000#32 (fmul 0x40000000#32 a)) = true →
              (roundsTo (real x - real mean) v ∧ roundsTo (128 / real a) f ∧ roundsTo (real v * real f) p ∧
                roundsTo (q / real f) d ∧ (isFinite d = true → roundsTo (real d + real mean) r)) ∧
              ∀ δ : ℚ, δ = |real v - (real x - real mean)| + |real p - 128 * real v / real a| * (real a / 128) +
                  |real d - q * (real a / 128)| + |real r - (real d + real mean)| →
                |real r - real x| ≤ real a / 128 + δ ∧
                (real v ≤ real a - real a / 256 → |real r - real x| ≤ real a / 256 + δ))) ∧
  ∀ s : State, s.va = [0x3F000000#32, 0x3FC00000#32] → s.regK = 2 →
    ∃ t u : State, exec .scompress s = .next t ∧ t.sq = [0x80#8, 0x7F#8] ∧ t.sf = [0x43800000#32] ∧
      t.regSM = 0x3F800000#32 ∧ exec .sdecompress t = .next u ∧ u.vr = [0x3F000000#32, 0x3FBF8000#32]

/-! ## ElementCodec -/

/-- 42_element_codec.md R78, R77: each word of the CodeTable after reset is the binary32 value nearest to its decimal
literal, and the words are strictly increasing. -/
def Obligations.CodeTableRoundsTheLiterals : Prop :=
  (∀ i < 16, roundsTo (tableLiteral.getD i 0) (tableWord State.reset.params.codeTable i)) ∧
  ∀ i < 15, real (tableWord State.reset.params.codeTable i) < real (tableWord State.reset.params.codeTable (i + 1))

/-- 42_element_codec.md R84, R79, R80, derived: QNEAREST cannot fail; RI becomes a code 0 to 15, for a finite XV the index
of a nearest entry of the block's CodeTable and of the equally near ones the smallest; nothing but RI and the error
registers changes. For an XV that is infinite or NaN, that the command runs with a free code is the model's choice (log
entry 3). -/
def Obligations.QnearestPicksNearestSmallestIndex : Prop :=
  ∀ s : State, ∃ code : U4,
    exec .qnearest s = .next { s with regRI := code.setWidth 32, errors := ⟨0, 0, 0, 0⟩ } ∧
    (isFinite s.regXV = true → ∀ j < 16,
      |real (tableWord s.params.codeTable code.toNat) - real s.regXV| ≤
        |real (tableWord s.params.codeTable j) - real s.regXV| ∧
      (|real (tableWord s.params.codeTable code.toNat) - real s.regXV| =
        |real (tableWord s.params.codeTable j) - real s.regXV| → code.toNat ≤ j))

/-- 42_element_codec.md R81, 93_implementation_defined.md U7, derived: for every CodeTable U7 allows, the code is the
number of midpoints strictly below the value. -/
def Obligations.NearestCountsMidpointsBelow : Prop :=
  ∀ (ct : CodeTable) (v : Num32), codeTableWf ct → isFinite v = true →
    (quantizeNearest ct v).toNat = ((List.range 15).filter fun i => decide (Machine.midpoint ct i < real v)).length

/-- 42_element_codec.md R81, R82, R83, derived: on the default CodeTable the five ties keep the smaller index, and for
every CodeTable 93_implementation_defined.md U7 allows, every entry is its own nearest and ceiling code. -/
def Obligations.NearestOnTiesAndEntries : Prop :=
  (quantizeNearest defaultCodeTable 0xBF591D15#32 = 0 ∧ quantizeNearest defaultCodeTable 0xBF1C538F#32 = 1 ∧
    quantizeNearest defaultCodeTable 0xBE703AFB#32 = 4 ∧ quantizeNearest defaultCodeTable 0xBD3A92A3#32 = 6 ∧
    quantizeNearest defaultCodeTable 0x3D230553#32 = 7) ∧
  ∀ ct : CodeTable, codeTableWf ct → ∀ i : U4,
    quantizeNearest ct (dequantize ct i) = i ∧ quantizeCeil ct (dequantize ct i) = i

/-- 42_element_codec.md R85, R82: DEQUANT fails with check 9 when the whole of XI exceeds 15, and otherwise RV becomes
the table word; nothing but RV and the error registers changes. -/
def Obligations.DequantReadsTableOrFails : Prop :=
  ∀ s : State,
    (15 < s.regXI.toNat →
      exec .dequant s = .next { s with errors := ⟨3, 9, 15, s.regXI⟩ }) ∧
    (s.regXI.toNat ≤ 15 →
      exec .dequant s = .next { s with regRV := tableWord s.params.codeTable s.regXI.toNat, errors := ⟨0, 0, 0, 0⟩ })

/-- 42_element_codec.md R86, R83, derived: QCEIL cannot fail; RI becomes a code 0 to 15, for a finite XV the smallest index
whose entry of the block's CodeTable is not below it, or 15 where there is none; nothing but RI and the error registers
changes. For an XV that is infinite or NaN, that the command runs with a free code is the model's choice (log entry
3). -/
def Obligations.QceilPicksSmallestEntryNotBelow : Prop :=
  ∀ s : State, ∃ code : U4,
    exec .qceil s = .next { s with regRI := code.setWidth 32, errors := ⟨0, 0, 0, 0⟩ } ∧
    (isFinite s.regXV = true →
      ((∃ j < 16, real s.regXV ≤ real (tableWord s.params.codeTable j)) →
        real s.regXV ≤ real (tableWord s.params.codeTable code.toNat) ∧
        ∀ j < code.toNat, real (tableWord s.params.codeTable j) < real s.regXV) ∧
      ((∀ j < 16, real (tableWord s.params.codeTable j) < real s.regXV) → code = 15))

/-! ## Packer -/

/-- 43_packer.md R92, R89; 20_memory.md R38: PACK fails with check 10 on an odd number of codes, and otherwise puts the
code of the even index in the high nibble and of the odd index in the low one; nothing but PK and the error registers
changes. -/
def Obligations.PackJoinsNibblePairs : Prop :=
  ∀ s : State,
    (s.cd.length % 2 ≠ 0 → exec .pack s = .next { s with errors := reported 1 10 2 s.cd.length }) ∧
    (s.cd.length % 2 = 0 →
      ∃ pk : List U8,
        exec .pack s = .next { s with pk := pk, errors := ⟨0, 0, 0, 0⟩ } ∧
        pk.length = s.cd.length / 2 ∧
        ∀ k < s.cd.length / 2,
          (pk.getD k 0).toNat = 16 * (s.cd.getD (2 * k) 0).toNat + (s.cd.getD (2 * k + 1) 0).toNat)

/-- 43_packer.md R93, R90: UNPACK cannot fail and splits every byte, high nibble first; nothing but CD and the error
registers changes. -/
def Obligations.UnpackSplitsBytes : Prop :=
  ∀ s : State, ∃ cd : List U4,
    exec .unpack s = .next { s with cd := cd, errors := ⟨0, 0, 0, 0⟩ } ∧
    cd.length = 2 * s.pk.length ∧
    ∀ k < s.pk.length,
      (cd.getD (2 * k) 0).toNat = (s.pk.getD k 0).toNat / 16 ∧
      (cd.getD (2 * k + 1) 0).toNat = (s.pk.getD k 0).toNat % 16

/-- 43_packer.md R91, derived: pack and unpack are exact inverses. -/
def Obligations.PackAndUnpackAreInverse : Prop :=
  (∀ codes : List U4, codes.length % 2 = 0 → unpackBytes (packCodes codes) = codes) ∧
  ∀ bytes : List U8, packCodes (unpackBytes bytes) = bytes

/-! ## PackedWeightCodec -/

/-- 44_packed_weight_codec.md R96; 00_scope.md R12, R34(b); 60_exceptions.md R112: the seven checks of ENCODE, the first
failing one reported; the product of the shape is exact, 1 for no dimension, and reported as `2^32 - 1` from `2^32` on;
nothing but the error registers changes. -/
def Obligations.EncodeReportsFirstFailingCheck : Prop :=
  ∀ s : State,
    (s.raw.length = 0 → exec .encode s = .next { s with errors := reported 1 20 1 0 }) ∧
    (s.raw.length ≠ 0 →
      ((∃ d ∈ s.shape, d = 0) ∨ (s.shape.map BitVec.toNat).prod ≠ s.raw.length →
        exec .encode s = .next { s with errors := reported 1 21 s.raw.length (s.shape.map BitVec.toNat).prod } ∧
        (2 ^ 32 ≤ (s.shape.map BitVec.toNat).prod →
          exec .encode s = .next { s with errors := ⟨1, 21, cut32 s.raw.length, 0xFFFFFFFF#32⟩ })) ∧
      ((∀ d ∈ s.shape, d ≠ 0) → (s.shape.map BitVec.toNat).prod = s.raw.length →
        (s.regB = 0 → exec .encode s = .next { s with errors := reported 1 22 1 0 }) ∧
        (s.regB ≠ 0 →
          (s.raw.length % s.regB.toNat ≠ 0 →
            exec .encode s = .next { s with errors := reported 1 23 s.regB.toNat s.raw.length }) ∧
          (s.raw.length % s.regB.toNat = 0 →
            (s.regS = 0 → exec .encode s = .next { s with errors := reported 1 24 1 0 }) ∧
            (s.regS ≠ 0 →
              (s.raw.length / s.regB.toNat % s.regS.toNat ≠ 0 →
                exec .encode s =
                  .next { s with errors := reported 1 25 s.regS.toNat (s.raw.length / s.regB.toNat) }) ∧
              (s.raw.length / s.regB.toNat % s.regS.toNat = 0 → s.raw.length % 2 ≠ 0 →
                exec .encode s = .next { s with errors := reported 1 26 2 s.raw.length }))))))

/-- 44_packed_weight_codec.md R96, R97, R98: when all checks pass ENCODE replaces the seven fields of W: the sizes and
the shape as given, the codes, factors and mean of the block scales, and per pair of elements the nearest codes of the
normalized values; nothing but W and the error registers changes. On a RAW element that is not finite, and on a factor to
which 41_scaler_codec.md R68 gives no meaning, that ENCODE runs, with free values and with the branch it takes on a scale
that is not finite, is the model's choice (log entries 3 and 4). -/
def Obligations.EncodeBuildsAggregate : Prop :=
  ∀ s : State,
    s.raw.length ≠ 0 → (∀ d ∈ s.shape, d ≠ 0) → (s.shape.map BitVec.toNat).prod = s.raw.length →
    s.regB ≠ 0 → s.raw.length % s.regB.toNat = 0 → s.regS ≠ 0 →
    s.raw.length / s.regB.toNat % s.regS.toNat = 0 → s.raw.length % 2 = 0 →
      ∃ (scales : List Num32) (code : Nat → U4) (packed : List U8),
        scales = absmaxPerBlock (s.raw.map (widen s.params.rawFmt)) s.regB.toNat ∧
        exec .encode s = .next { s with
          w := {
            blockSize := s.regB
            scalerBlockSize := s.regS
            originalShape := s.shape
            quantizedScalers := (compress scales s.regS.toNat).codes
            quantizationFactor := (compress scales s.regS.toNat).factors
            scalerMean := (compress scales s.regS.toNat).mean
            packedBytes := packed }
          errors := ⟨0, 0, 0, 0⟩ } ∧
        scales.length = s.raw.length / s.regB.toNat ∧
        (∀ i < s.raw.length,
          (isZero (scales.getD (i / s.regB.toNat) 0) = true → code i = quantizeNearest s.params.codeTable 0x00000000#32) ∧
          (isZero (scales.getD (i / s.regB.toNat) 0) = false →
            code i = quantizeNearest s.params.codeTable
              (fdiv (widen s.params.rawFmt (s.raw.getD i 0)) (scales.getD (i / s.regB.toNat) 0)))) ∧
        packed.length = s.raw.length / 2 ∧
        ∀ k < s.raw.length / 2, (packed.getD k 0).toNat = 16 * (code (2 * k)).toNat + (code (2 * k + 1)).toNat

/-- 44_packed_weight_codec.md R97: a zero scale normalizes to `+0`; otherwise an element no larger than the scale
normalizes into `[-1, 1]`, and one equal to it to exactly `+1.0` or `-1.0`. -/
def Obligations.NormalizedElementsStayInUnitRange : Prop :=
  ∀ x scale : Num32, isFinite x = true → isFinite scale = true →
    (isZero scale = true → Machine.normalize x scale = 0x00000000#32) ∧
    (0 < real scale → |real x| ≤ real scale →
      isFinite (Machine.normalize x scale) = true ∧ |real (Machine.normalize x scale)| ≤ 1 ∧
      (real x = real scale → Machine.normalize x scale = 0x3F800000#32) ∧
      (real x = -real scale → Machine.normalize x scale = 0xBF800000#32))

/-- 44_packed_weight_codec.md R102, derived: the round trip of an element, up to the final `narrow`. In the default
CodeTable no gap is larger than the first. With a CodeTable 93_implementation_defined.md U7 allows, whose half-gaps are at
most `h`, a normalized element is recovered within `h`, and an element no larger than its scale within `h` times the scale
plus what the recovered scale differs from it, up to the errors of the two binary32 roundings: the quotient `n` and the
product `y`. In a block of scale zero every element comes back as zero. -/
def Obligations.ElementRoundTripIsBounded : Prop :=
  (∀ i < 15, real (tableWord defaultCodeTable (i + 1)) - real (tableWord defaultCodeTable i) ≤
    real (tableWord defaultCodeTable 1) - real (tableWord defaultCodeTable 0)) ∧
  ∀ (ct : CodeTable) (h : ℚ), codeTableWf ct →
    (∀ i < 15, real (tableWord ct (i + 1)) - real (tableWord ct i) ≤ 2 * h) →
      (∀ v : Num32, isFinite v = true → |real v| ≤ 1 →
        |real (tableWord ct (quantizeNearest ct v).toNat) - real v| ≤ h) ∧
      ∀ x scale recovered n t y : Num32,
        isFinite x = true → isFinite scale = true → |real x| ≤ real scale → isFinite recovered = true →
        n = Machine.normalize x scale →
        t = tableWord ct (quantizeNearest ct n).toNat → y = fmul t recovered →
          (real scale = 0 → real y = real x) ∧
          (0 < real scale →
            roundsTo (real x / real scale) n ∧ roundsTo (real t * real recovered) y ∧
            |real y - real x| ≤ h * real scale + |real recovered - real scale| +
              |real n - real x / real scale| * real scale + |real y - real t * real recovered|)

/-- 44_packed_weight_codec.md R100, 00_scope.md R12, R34(b), 60_exceptions.md R112, derived: the seven checks of DECODE,
the first failing one reported; the product of the shape is exact, 1 for no dimension, and reported as `2^32 - 1` from
`2^32` on; nothing but the error registers changes. When none fails DECODE ends without error, whatever the codes,
factors and mean are: that it does so on a factor that is zero, infinite or NaN and on a mean that is not finite is the
model's choice (log entries 3 and 5). -/
def Obligations.DecodeReportsFirstFailingCheck : Prop :=
  ∀ (s : State) (n : Nat), n = 2 * s.w.packedBytes.length →
    (s.w.blockSize = 0 → exec .decode s = .next { s with errors := reported 4 30 1 0 }) ∧
    (s.w.blockSize ≠ 0 →
      (n % s.w.blockSize.toNat ≠ 0 →
        exec .decode s = .next { s with errors := reported 4 31 s.w.blockSize.toNat n }) ∧
      (n % s.w.blockSize.toNat = 0 →
        (s.w.quantizedScalers.length ≠ n / s.w.blockSize.toNat →
          exec .decode s =
            .next { s with errors := reported 4 32 (n / s.w.blockSize.toNat) s.w.quantizedScalers.length }) ∧
        (s.w.quantizedScalers.length = n / s.w.blockSize.toNat →
          (s.w.scalerBlockSize = 0 → exec .decode s = .next { s with errors := reported 4 33 1 0 }) ∧
          (s.w.scalerBlockSize ≠ 0 →
            (s.w.quantizedScalers.length % s.w.scalerBlockSize.toNat ≠ 0 →
              exec .decode s = .next { s with
                errors := reported 4 34 s.w.scalerBlockSize.toNat s.w.quantizedScalers.length }) ∧
            (s.w.quantizedScalers.length % s.w.scalerBlockSize.toNat = 0 →
              (s.w.quantizationFactor.length ≠ s.w.quantizedScalers.length / s.w.scalerBlockSize.toNat →
                exec .decode s = .next { s with
                  errors := reported 4 35 (s.w.quantizedScalers.length / s.w.scalerBlockSize.toNat)
                    s.w.quantizationFactor.length }) ∧
              (s.w.quantizationFactor.length = s.w.quantizedScalers.length / s.w.scalerBlockSize.toNat →
                ((∃ d ∈ s.w.originalShape, d = 0) ∨ (s.w.originalShape.map BitVec.toNat).prod ≠ n →
                  exec .decode s = .next { s with
                    errors := reported 4 36 n (s.w.originalShape.map BitVec.toNat).prod } ∧
                  (2 ^ 32 ≤ (s.w.originalShape.map BitVec.toNat).prod →
                    exec .decode s = .next { s with errors := ⟨4, 36, cut32 n, 0xFFFFFFFF#32⟩ })) ∧
                ((∀ d ∈ s.w.originalShape, d ≠ 0) → (s.w.originalShape.map BitVec.toNat).prod = n →
                  ∃ t, exec .decode s = .next t ∧ t.errors = ⟨0, 0, 0, 0⟩)))))))

/-- 44_packed_weight_codec.md R99: on a consistent aggregate DECODE writes one output element per code, the table word
times the recovered scale of its block, narrowed, and the shape; nothing but OUT, OUT_SHAPE and the error registers
changes. A factor of zero, infinity or NaN, and a mean or a product that is not finite, has no meaning there: that DECODE
runs with a free value is the model's choice (log entries 3 and 5). -/
def Obligations.DecodeRescalesEveryCode : Prop :=
  ∀ s : State, consistent s.w →
    ∃ (scales : List Num32) (out : List F16),
      scales = decompress s.w.quantizedScalers s.w.quantizationFactor s.w.scalerBlockSize.toNat s.w.scalerMean ∧
      exec .decode s = .next { s with out := out, outShape := s.w.originalShape, errors := ⟨0, 0, 0, 0⟩ } ∧
      scales.length = 2 * s.w.packedBytes.length / s.w.blockSize.toNat ∧
      out.length = 2 * s.w.packedBytes.length ∧
      ∀ k < s.w.packedBytes.length,
        out.getD (2 * k) 0 =
          narrow s.params.rawFmt
            (fmul (tableWord s.params.codeTable ((s.w.packedBytes.getD k 0).toNat / 16))
              (scales.getD (2 * k / s.w.blockSize.toNat) 0)) ∧
        out.getD (2 * k + 1) 0 =
          narrow s.params.rawFmt
            (fmul (tableWord s.params.codeTable ((s.w.packedBytes.getD k 0).toNat % 16))
              (scales.getD ((2 * k + 1) / s.w.blockSize.toNat) 0))

/-- 44_packed_weight_codec.md R100, 10_state.md R23: DECODE ends without error exactly on a consistent aggregate.
That it runs on factors without a meaning is the model's choice (log entries 3 and 5). -/
def Obligations.DecodeAcceptsExactlyConsistent : Prop :=
  ∀ s : State, (∃ t, exec .decode s = .next t ∧ t.errors = ⟨0, 0, 0, 0⟩) ↔ consistent s.w

/-- 44_packed_weight_codec.md R98, derived: an aggregate ENCODE has just built is consistent, so a DECODE right after it
ends without error, with as many elements as the input and its shape. That both run on values without a meaning is the
model's choice (log entries 3, 4 and 5). -/
def Obligations.DecodeAfterEncodeSucceeds : Prop :=
  ∀ s t : State, exec .encode s = .next t → t.errors = ⟨0, 0, 0, 0⟩ →
    consistent t.w ∧
    ∃ out : List F16,
      exec .decode t = .next { t with out := out, outShape := s.shape, errors := ⟨0, 0, 0, 0⟩ } ∧
      out.length = s.raw.length

/-- 44_packed_weight_codec.md R104, derived: a tensor of zeros encodes without error to degenerate codes, factors 1.0,
mean `+0` and bytes 0x77, and decodes to all `+0`, in either 16-bit format and with every CodeTable
93_implementation_defined.md U7 allows. -/
def Obligations.ZeroTensorRoundTrips : Prop :=
  ∀ s : State, codeTableWf s.params.codeTable →
    (∀ h ∈ s.raw, h = 0x0000#16 ∨ h = 0x8000#16) → s.raw.length ≠ 0 → s.raw.length < 2 ^ 31 →
    (∀ d ∈ s.shape, d ≠ 0) → (s.shape.map BitVec.toNat).prod = s.raw.length →
    s.regB ≠ 0 → s.raw.length % s.regB.toNat = 0 → s.regS ≠ 0 →
    s.raw.length / s.regB.toNat % s.regS.toNat = 0 → s.raw.length % 2 = 0 →
      ∃ t u : State,
        exec .encode s = .next t ∧ t.errors = ⟨0, 0, 0, 0⟩ ∧
        t.w.quantizedScalers = List.replicate (s.raw.length / s.regB.toNat) 0 ∧
        t.w.quantizationFactor = List.replicate (s.raw.length / s.regB.toNat / s.regS.toNat) 0x3F800000#32 ∧
        t.w.scalerMean = 0x00000000#32 ∧
        t.w.packedBytes = List.replicate (s.raw.length / 2) 0x77#8 ∧
        exec .decode t = .next u ∧ u.errors = ⟨0, 0, 0, 0⟩ ∧
        u.out = List.replicate s.raw.length 0x0000#16 ∧ u.outShape = s.shape

/-! ## The whole machine -/

/-- 70_reset_and_hazards.md R133, 60_exceptions.md R111, R112: every command ends, in every state, with a next state,
and the error registers are all 0 or the error code is not. That it ends so on values without a meaning is the model's
choice (log entries 3, 4 and 5). -/
def Obligations.EveryCommandEnds : Prop :=
  ∀ (i : Instr) (s : State), ∃ t, exec i s = .next t ∧ (t.errors = ⟨0, 0, 0, 0⟩ ∨ t.errors.err ≠ 0)

/-- 60_exceptions.md R112: a command that ends with an error has changed nothing but the four error registers. -/
def Obligations.FailedCommandChangesOnlyErrors : Prop :=
  ∀ (i : Instr) (s t : State), exec i s = .next t → t.errors.err ≠ 0 → t = { s with errors := t.errors }

/-- 20_memory.md R42, derived: issuing the same command twice in a row leaves the same state as issuing it once. For
operands that are not finite this rests on the model's free values being functions of the operands (log entry 3). -/
def Obligations.CommandsAreIdempotent : Prop :=
  ∀ (i : Instr) (s t : State), exec i s = .next t → exec i t = .next t

/-- 10_state.md R29: the result of a command is a function of the items it reads and of nothing else. For operands that
are not finite this rests on the model's free values being functions of the operands (log entry 3). -/
def Obligations.ResultsDependOnlyOnOperands : Prop :=
  ∀ (i : Instr) (s s' t t' : State), readsAgree i s s' → exec i s = .next t → exec i s' = .next t' →
    t.errors = t'.errors ∧ (t.errors.err = 0 → writesAgree i t t')

/-- 10_state.md R25: no command writes RAW or SHAPE. -/
def Obligations.CommandsNeverWriteTheInputTensor : Prop :=
  ∀ (i : Instr) (s t : State), exec i s = .next t → t.raw = s.raw ∧ t.shape = s.shape

/-- 10_state.md R20, R21, R25, R26: whether it fails or not, a command changes nothing but the items that the columns
'written by command' list for it, and the error registers: not RAW, not SHAPE, not another command's result. -/
def Obligations.CommandsStayInTheirGroup : Prop :=
  ∀ (i : Instr) (s t : State), exec i s = .next t → writesOnly i s t

/-- 10_state.md R24, 70_reset_and_hazards.md R126: exactly a successful ENCODE and HostLoadW change W, each as a whole,
and the reset event empties it. -/
def Obligations.AggregateChangesOnlyAsAWhole : Prop :=
  ∀ s t : State, step s = .next t →
    t.w = s.w ∨
    (∃ w rest, s.inbox = .loadW w :: rest ∧ t.w = w) ∨
    (∃ c rest, s.inbox = .writeReg 0 c :: rest ∧ decode c = .ok .encode ∧ t.errors = ⟨0, 0, 0, 0⟩ ∧
      t.w = encodeAggregate s.params.rawFmt s.params.codeTable s.raw s.shape s.regB s.regS) ∨
    (∃ rest, s.inbox = .reset :: rest ∧ t.w = ⟨0, 0, [], [], [], 0, []⟩)

/-- 10_state.md R30: the error registers change only by a command word written to CMD and by reset. -/
def Obligations.ErrorRegistersChangeOnlyByCommands : Prop :=
  ∀ s t : State, step s = .next t →
    t.errors = s.errors ∨ (∃ c rest, s.inbox = .writeReg 0 c :: rest) ∨ (∃ rest, s.inbox = .reset :: rest)

/-- 10_state.md R21, derived: every step keeps every buffer within its capacity. -/
def Obligations.EveryStepKeepsCapacities : Prop :=
  ∀ s t : State, Memory.wf s → step s = .next t → Memory.wf t

/-- 10_state.md R31: after reset every buffer is within its capacity. -/
def Obligations.ResetIsWithinCapacities : Prop := Memory.wf State.reset

/-- 60_exceptions.md R110, R113, R115: in every step the error registers keep holding nothing but a legal pair of code
and check; code 2 never appears. -/
def Obligations.EveryStepKeepsErrorsLegal : Prop :=
  ∀ s t : State, legalErrors s.errors → step s = .next t → legalErrors t.errors ∧ t.errors.err ≠ 2

/-- 10_state.md R31: after reset the error registers are legal. -/
def Obligations.ResetErrorsAreLegal : Prop := legalErrors State.reset.errors

/-- 10_state.md R20: RI always holds 0 to 15: it does after reset, and every step keeps it so. -/
def Obligations.ResultIndexStaysInRange : Prop :=
  State.reset.regRI.toNat ≤ 15 ∧
  ∀ s t : State, s.regRI.toNat ≤ 15 → step s = .next t → t.regRI.toNat ≤ 15

/-- 00_scope.md R8, R10, 10_state.md R22, 42_element_codec.md R77: the parameters of a block, its CodeTable among them,
meet their constraints after reset and never change. That State holds them is the model's choice (log entries 2 and
7). -/
def Obligations.ParametersNeverChange : Prop :=
  State.reset.params.wf ∧ codeTableWf State.reset.params.codeTable ∧
  ∀ s t : State, step s = .next t → t.params = s.params

/-- 20_memory.md R50, 60_exceptions.md R121: steps of different copies of the block commute, and neither changes the
other copy. -/
def Obligations.CopiesAreIndependent : Prop :=
  ∀ (sys a b : System) (j k : Nat), j ≠ k → systemStep j sys = some a → systemStep k a = some b →
    a[k]? = sys[k]? ∧ ∃ c, systemStep k sys = some c ∧ systemStep j c = some b
end

