-- ==== Sys2Proof/Laws/Buffers.lean ====
section
/-! SUPPORT. Lengths and elements of the sequences the commands compute. -/

namespace Sys2Proof.Machine

/-! ## Blocks -/

@[simp] theorem blocksOf_length {α : Type} (k n : Nat) (xs : List α) : (blocksOf k n xs).length = n := by
  induction n generalizing xs with
  | zero => rfl
  | succ n ih => simp [blocksOf, ih]

/-- Block `j` is the elements from index `j * k` on, `k` of them. -/
theorem blocksOf_getElem? {α : Type} (k n : Nat) (xs : List α) (j : Nat) (h : j < n) :
    (blocksOf k n xs)[j]? = some ((xs.drop (j * k)).take k) := by
  induction n generalizing xs j with
  | zero => omega
  | succ n ih =>
    cases j with
    | zero => simp [blocksOf]
    | succ j =>
      simp only [blocksOf, List.getElem?_cons_succ]
      rw [ih _ _ (by omega), List.drop_drop]
      congr 3
      ring

@[simp] theorem absmaxPerBlock_length (xs : List Num32) (k : Nat) :
    (absmaxPerBlock xs k).length = xs.length / k := by simp [absmaxPerBlock]

/-- Result `j` of absmax_per_block is the absmax of block `j` (40_block_statistics.md R61). -/
theorem absmaxPerBlock_getElem? (xs : List Num32) (k j : Nat) (h : j < xs.length / k) :
    (absmaxPerBlock xs k)[j]? = some (blockAbsmax ((xs.drop (j * k)).take k)) := by
  simp [absmaxPerBlock, blocksOf_getElem? k _ xs j h]

/-! ## compress and decompress -/

@[simp] theorem centered_length (xs : List Num32) : (centered xs).length = xs.length := by simp [centered]

@[simp] theorem chunkFactors_length (xs : List Num32) (k : Nat) : (chunkFactors xs k).length = xs.length / k := by
  simp [chunkFactors]

@[simp] theorem scalerCodes_length (cs fs : List Num32) (k : Nat) : (scalerCodes cs fs k).length = cs.length := by
  simp [scalerCodes]

@[simp] theorem compress_codes_length (xs : List Num32) (k : Nat) : (compress xs k).codes.length = xs.length := by
  simp [compress]

@[simp] theorem compress_factors_length (xs : List Num32) (k : Nat) :
    (compress xs k).factors.length = xs.length / k := by simp [compress]

@[simp] theorem decompress_length (q : List I8) (f : List Num32) (k : Nat) (m : Num32) :
    (decompress q f k m).length = q.length := by simp [decompress]

/-- Centered scale `i` (41_scaler_codec.md R66). -/
theorem centered_getD (xs : List Num32) (i : Nat) (h : i < xs.length) :
    (centered xs).getD i 0 = fsub (xs.getD i 0) (meanFn xs) := by
  rw [List.getD_eq_getElem _ _ (by simpa using h), List.getD_eq_getElem _ _ h]
  simp [centered]

/-- Factor `c` (41_scaler_codec.md R68). -/
theorem chunkFactors_getD (cs : List Num32) (k c : Nat) (h : c < cs.length / k) :
    (chunkFactors cs k).getD c 0 = chunkFactor ((absmaxPerBlock cs k).getD c 0) := by
  rw [List.getD_eq_getElem _ _ (by simpa using h), List.getD_eq_getElem _ _ (by simpa using h)]
  simp [chunkFactors]

/-- Scaler code `i` (41_scaler_codec.md R69). -/
theorem scalerCodes_getD (cs fs : List Num32) (k i : Nat) (h : i < cs.length) :
    (scalerCodes cs fs k).getD i 0 = sat8 (rint (fmul (cs.getD i 0) (fs.getD (i / k) 0))) := by
  rw [List.getD_eq_getElem _ _ (by simpa using h), List.getD_eq_getElem cs _ h]
  simp only [scalerCodes, List.getElem_mapIdx]

/-- Recovered scale `i` (41_scaler_codec.md R71). -/
theorem decompress_getD (q : List I8) (f : List Num32) (k : Nat) (m : Num32) (i : Nat) (h : i < q.length) :
    (decompress q f k m).getD i 0 = fadd (fdiv (i2f (q.getD i 0).toInt) (f.getD (i / k) 0)) m := by
  rw [List.getD_eq_getElem _ _ (by simpa using h), List.getD_eq_getElem q _ h]
  simp only [decompress, List.getElem_mapIdx]

/-! ## Codes and bytes -/

@[simp] theorem elementCodes_length (ct : CodeTable) (xs scales : List Num32) (k : Nat) :
    (elementCodes ct xs scales k).length = xs.length := by simp [elementCodes]

@[simp] theorem packCodes_length (cs : List U4) : (packCodes cs).length = cs.length / 2 := by
  induction cs using packCodes.induct with
  | case1 hi lo rest ih => simp only [packCodes, List.length_cons, ih]; omega
  | case2 c => simp [packCodes]
  | case3 => rfl

@[simp] theorem unpackBytes_length (ys : List U8) : (unpackBytes ys).length = 2 * ys.length := by
  induction ys with
  | nil => rfl
  | cons y ys ih => simp only [unpackBytes, List.length_cons, ih]; omega

@[simp] theorem decodeValues_length (fmt : RawFmt) (ct : CodeTable) (w : Aggregate) :
    (decodeValues fmt ct w).length = 2 * w.packedBytes.length := by simp [decodeValues]

/-! ## Nibbles (43_packer.md R89, R90) -/

theorem packByte_toNat (hi lo : U4) : (packByte hi lo).toNat = 16 * hi.toNat + lo.toNat := by
  revert hi lo; decide +kernel

theorem highNibble_toNat (y : U8) : (highNibble y).toNat = y.toNat / 16 := by revert y; decide +kernel

theorem lowNibble_toNat (y : U8) : (lowNibble y).toNat = y.toNat % 16 := by revert y; decide +kernel

@[simp] theorem highNibble_packByte (hi lo : U4) : highNibble (packByte hi lo) = hi := by
  revert hi lo; decide +kernel

@[simp] theorem lowNibble_packByte (hi lo : U4) : lowNibble (packByte hi lo) = lo := by
  revert hi lo; decide +kernel

@[simp] theorem packByte_nibbles (y : U8) : packByte (highNibble y) (lowNibble y) = y := by
  revert y; decide +kernel

end Sys2Proof.Machine
end

