-- ==== Sys2Proof/Laws/State.lean ====
section
/-! SUPPORT. One lemma per field of State and per update of the state, all by rfl, so that no proof unfolds a record
update. -/

namespace Sys2Proof.Machine

/-! ### raise -/

@[simp] theorem raise_errors (f : Failure) (s : State) : (raise f s).errors = ⟨errorCode f.kind, saturate32 f.chk, saturate32 f.exp, saturate32 f.act⟩ := rfl
@[simp] theorem raise_regB (f : Failure) (s : State) : (raise f s).regB = s.regB := rfl
@[simp] theorem raise_regS (f : Failure) (s : State) : (raise f s).regS = s.regS := rfl
@[simp] theorem raise_regK (f : Failure) (s : State) : (raise f s).regK = s.regK := rfl
@[simp] theorem raise_regXV (f : Failure) (s : State) : (raise f s).regXV = s.regXV := rfl
@[simp] theorem raise_regXI (f : Failure) (s : State) : (raise f s).regXI = s.regXI := rfl
@[simp] theorem raise_regRV (f : Failure) (s : State) : (raise f s).regRV = s.regRV := rfl
@[simp] theorem raise_regRI (f : Failure) (s : State) : (raise f s).regRI = s.regRI := rfl
@[simp] theorem raise_regSM (f : Failure) (s : State) : (raise f s).regSM = s.regSM := rfl
@[simp] theorem raise_raw (f : Failure) (s : State) : (raise f s).raw = s.raw := rfl
@[simp] theorem raise_shape (f : Failure) (s : State) : (raise f s).shape = s.shape := rfl
@[simp] theorem raise_va (f : Failure) (s : State) : (raise f s).va = s.va := rfl
@[simp] theorem raise_vr (f : Failure) (s : State) : (raise f s).vr = s.vr := rfl
@[simp] theorem raise_sq (f : Failure) (s : State) : (raise f s).sq = s.sq := rfl
@[simp] theorem raise_sf (f : Failure) (s : State) : (raise f s).sf = s.sf := rfl
@[simp] theorem raise_cd (f : Failure) (s : State) : (raise f s).cd = s.cd := rfl
@[simp] theorem raise_pk (f : Failure) (s : State) : (raise f s).pk = s.pk := rfl
@[simp] theorem raise_w (f : Failure) (s : State) : (raise f s).w = s.w := rfl
@[simp] theorem raise_out (f : Failure) (s : State) : (raise f s).out = s.out := rfl
@[simp] theorem raise_outShape (f : Failure) (s : State) : (raise f s).outShape = s.outShape := rfl
@[simp] theorem raise_params (f : Failure) (s : State) : (raise f s).params = s.params := rfl
@[simp] theorem raise_inbox (f : Failure) (s : State) : (raise f s).inbox = s.inbox := rfl
@[simp] theorem raise_replies (f : Failure) (s : State) : (raise f s).replies = s.replies := rfl

/-! ### finish -/

@[simp] theorem finish_errors (s : State) : (finish s).errors = ErrorRegs.clear := rfl
@[simp] theorem finish_regB (s : State) : (finish s).regB = s.regB := rfl
@[simp] theorem finish_regS (s : State) : (finish s).regS = s.regS := rfl
@[simp] theorem finish_regK (s : State) : (finish s).regK = s.regK := rfl
@[simp] theorem finish_regXV (s : State) : (finish s).regXV = s.regXV := rfl
@[simp] theorem finish_regXI (s : State) : (finish s).regXI = s.regXI := rfl
@[simp] theorem finish_regRV (s : State) : (finish s).regRV = s.regRV := rfl
@[simp] theorem finish_regRI (s : State) : (finish s).regRI = s.regRI := rfl
@[simp] theorem finish_regSM (s : State) : (finish s).regSM = s.regSM := rfl
@[simp] theorem finish_raw (s : State) : (finish s).raw = s.raw := rfl
@[simp] theorem finish_shape (s : State) : (finish s).shape = s.shape := rfl
@[simp] theorem finish_va (s : State) : (finish s).va = s.va := rfl
@[simp] theorem finish_vr (s : State) : (finish s).vr = s.vr := rfl
@[simp] theorem finish_sq (s : State) : (finish s).sq = s.sq := rfl
@[simp] theorem finish_sf (s : State) : (finish s).sf = s.sf := rfl
@[simp] theorem finish_cd (s : State) : (finish s).cd = s.cd := rfl
@[simp] theorem finish_pk (s : State) : (finish s).pk = s.pk := rfl
@[simp] theorem finish_w (s : State) : (finish s).w = s.w := rfl
@[simp] theorem finish_out (s : State) : (finish s).out = s.out := rfl
@[simp] theorem finish_outShape (s : State) : (finish s).outShape = s.outShape := rfl
@[simp] theorem finish_params (s : State) : (finish s).params = s.params := rfl
@[simp] theorem finish_inbox (s : State) : (finish s).inbox = s.inbox := rfl
@[simp] theorem finish_replies (s : State) : (finish s).replies = s.replies := rfl

/-! ### setVR -/

@[simp] theorem setVR_errors (xs : List Num32) (s : State) : (setVR xs s).errors = s.errors := rfl
@[simp] theorem setVR_regB (xs : List Num32) (s : State) : (setVR xs s).regB = s.regB := rfl
@[simp] theorem setVR_regS (xs : List Num32) (s : State) : (setVR xs s).regS = s.regS := rfl
@[simp] theorem setVR_regK (xs : List Num32) (s : State) : (setVR xs s).regK = s.regK := rfl
@[simp] theorem setVR_regXV (xs : List Num32) (s : State) : (setVR xs s).regXV = s.regXV := rfl
@[simp] theorem setVR_regXI (xs : List Num32) (s : State) : (setVR xs s).regXI = s.regXI := rfl
@[simp] theorem setVR_regRV (xs : List Num32) (s : State) : (setVR xs s).regRV = s.regRV := rfl
@[simp] theorem setVR_regRI (xs : List Num32) (s : State) : (setVR xs s).regRI = s.regRI := rfl
@[simp] theorem setVR_regSM (xs : List Num32) (s : State) : (setVR xs s).regSM = s.regSM := rfl
@[simp] theorem setVR_raw (xs : List Num32) (s : State) : (setVR xs s).raw = s.raw := rfl
@[simp] theorem setVR_shape (xs : List Num32) (s : State) : (setVR xs s).shape = s.shape := rfl
@[simp] theorem setVR_va (xs : List Num32) (s : State) : (setVR xs s).va = s.va := rfl
@[simp] theorem setVR_vr (xs : List Num32) (s : State) : (setVR xs s).vr = xs := rfl
@[simp] theorem setVR_sq (xs : List Num32) (s : State) : (setVR xs s).sq = s.sq := rfl
@[simp] theorem setVR_sf (xs : List Num32) (s : State) : (setVR xs s).sf = s.sf := rfl
@[simp] theorem setVR_cd (xs : List Num32) (s : State) : (setVR xs s).cd = s.cd := rfl
@[simp] theorem setVR_pk (xs : List Num32) (s : State) : (setVR xs s).pk = s.pk := rfl
@[simp] theorem setVR_w (xs : List Num32) (s : State) : (setVR xs s).w = s.w := rfl
@[simp] theorem setVR_out (xs : List Num32) (s : State) : (setVR xs s).out = s.out := rfl
@[simp] theorem setVR_outShape (xs : List Num32) (s : State) : (setVR xs s).outShape = s.outShape := rfl
@[simp] theorem setVR_params (xs : List Num32) (s : State) : (setVR xs s).params = s.params := rfl
@[simp] theorem setVR_inbox (xs : List Num32) (s : State) : (setVR xs s).inbox = s.inbox := rfl
@[simp] theorem setVR_replies (xs : List Num32) (s : State) : (setVR xs s).replies = s.replies := rfl

/-! ### setScaler -/

@[simp] theorem setScaler_errors (q : List I8) (f : List Num32) (m : Num32) (s : State) : (setScaler q f m s).errors = s.errors := rfl
@[simp] theorem setScaler_regB (q : List I8) (f : List Num32) (m : Num32) (s : State) : (setScaler q f m s).regB = s.regB := rfl
@[simp] theorem setScaler_regS (q : List I8) (f : List Num32) (m : Num32) (s : State) : (setScaler q f m s).regS = s.regS := rfl
@[simp] theorem setScaler_regK (q : List I8) (f : List Num32) (m : Num32) (s : State) : (setScaler q f m s).regK = s.regK := rfl
@[simp] theorem setScaler_regXV (q : List I8) (f : List Num32) (m : Num32) (s : State) : (setScaler q f m s).regXV = s.regXV := rfl
@[simp] theorem setScaler_regXI (q : List I8) (f : List Num32) (m : Num32) (s : State) : (setScaler q f m s).regXI = s.regXI := rfl
@[simp] theorem setScaler_regRV (q : List I8) (f : List Num32) (m : Num32) (s : State) : (setScaler q f m s).regRV = s.regRV := rfl
@[simp] theorem setScaler_regRI (q : List I8) (f : List Num32) (m : Num32) (s : State) : (setScaler q f m s).regRI = s.regRI := rfl
@[simp] theorem setScaler_regSM (q : List I8) (f : List Num32) (m : Num32) (s : State) : (setScaler q f m s).regSM = m := rfl
@[simp] theorem setScaler_raw (q : List I8) (f : List Num32) (m : Num32) (s : State) : (setScaler q f m s).raw = s.raw := rfl
@[simp] theorem setScaler_shape (q : List I8) (f : List Num32) (m : Num32) (s : State) : (setScaler q f m s).shape = s.shape := rfl
@[simp] theorem setScaler_va (q : List I8) (f : List Num32) (m : Num32) (s : State) : (setScaler q f m s).va = s.va := rfl
@[simp] theorem setScaler_vr (q : List I8) (f : List Num32) (m : Num32) (s : State) : (setScaler q f m s).vr = s.vr := rfl
@[simp] theorem setScaler_sq (q : List I8) (f : List Num32) (m : Num32) (s : State) : (setScaler q f m s).sq = q := rfl
@[simp] theorem setScaler_sf (q : List I8) (f : List Num32) (m : Num32) (s : State) : (setScaler q f m s).sf = f := rfl
@[simp] theorem setScaler_cd (q : List I8) (f : List Num32) (m : Num32) (s : State) : (setScaler q f m s).cd = s.cd := rfl
@[simp] theorem setScaler_pk (q : List I8) (f : List Num32) (m : Num32) (s : State) : (setScaler q f m s).pk = s.pk := rfl
@[simp] theorem setScaler_w (q : List I8) (f : List Num32) (m : Num32) (s : State) : (setScaler q f m s).w = s.w := rfl
@[simp] theorem setScaler_out (q : List I8) (f : List Num32) (m : Num32) (s : State) : (setScaler q f m s).out = s.out := rfl
@[simp] theorem setScaler_outShape (q : List I8) (f : List Num32) (m : Num32) (s : State) : (setScaler q f m s).outShape = s.outShape := rfl
@[simp] theorem setScaler_params (q : List I8) (f : List Num32) (m : Num32) (s : State) : (setScaler q f m s).params = s.params := rfl
@[simp] theorem setScaler_inbox (q : List I8) (f : List Num32) (m : Num32) (s : State) : (setScaler q f m s).inbox = s.inbox := rfl
@[simp] theorem setScaler_replies (q : List I8) (f : List Num32) (m : Num32) (s : State) : (setScaler q f m s).replies = s.replies := rfl

/-! ### setRI -/

@[simp] theorem setRI_errors (code : U4) (s : State) : (setRI code s).errors = s.errors := rfl
@[simp] theorem setRI_regB (code : U4) (s : State) : (setRI code s).regB = s.regB := rfl
@[simp] theorem setRI_regS (code : U4) (s : State) : (setRI code s).regS = s.regS := rfl
@[simp] theorem setRI_regK (code : U4) (s : State) : (setRI code s).regK = s.regK := rfl
@[simp] theorem setRI_regXV (code : U4) (s : State) : (setRI code s).regXV = s.regXV := rfl
@[simp] theorem setRI_regXI (code : U4) (s : State) : (setRI code s).regXI = s.regXI := rfl
@[simp] theorem setRI_regRV (code : U4) (s : State) : (setRI code s).regRV = s.regRV := rfl
@[simp] theorem setRI_regRI (code : U4) (s : State) : (setRI code s).regRI = code.setWidth 32 := rfl
@[simp] theorem setRI_regSM (code : U4) (s : State) : (setRI code s).regSM = s.regSM := rfl
@[simp] theorem setRI_raw (code : U4) (s : State) : (setRI code s).raw = s.raw := rfl
@[simp] theorem setRI_shape (code : U4) (s : State) : (setRI code s).shape = s.shape := rfl
@[simp] theorem setRI_va (code : U4) (s : State) : (setRI code s).va = s.va := rfl
@[simp] theorem setRI_vr (code : U4) (s : State) : (setRI code s).vr = s.vr := rfl
@[simp] theorem setRI_sq (code : U4) (s : State) : (setRI code s).sq = s.sq := rfl
@[simp] theorem setRI_sf (code : U4) (s : State) : (setRI code s).sf = s.sf := rfl
@[simp] theorem setRI_cd (code : U4) (s : State) : (setRI code s).cd = s.cd := rfl
@[simp] theorem setRI_pk (code : U4) (s : State) : (setRI code s).pk = s.pk := rfl
@[simp] theorem setRI_w (code : U4) (s : State) : (setRI code s).w = s.w := rfl
@[simp] theorem setRI_out (code : U4) (s : State) : (setRI code s).out = s.out := rfl
@[simp] theorem setRI_outShape (code : U4) (s : State) : (setRI code s).outShape = s.outShape := rfl
@[simp] theorem setRI_params (code : U4) (s : State) : (setRI code s).params = s.params := rfl
@[simp] theorem setRI_inbox (code : U4) (s : State) : (setRI code s).inbox = s.inbox := rfl
@[simp] theorem setRI_replies (code : U4) (s : State) : (setRI code s).replies = s.replies := rfl

/-! ### setRV -/

@[simp] theorem setRV_errors (v : Num32) (s : State) : (setRV v s).errors = s.errors := rfl
@[simp] theorem setRV_regB (v : Num32) (s : State) : (setRV v s).regB = s.regB := rfl
@[simp] theorem setRV_regS (v : Num32) (s : State) : (setRV v s).regS = s.regS := rfl
@[simp] theorem setRV_regK (v : Num32) (s : State) : (setRV v s).regK = s.regK := rfl
@[simp] theorem setRV_regXV (v : Num32) (s : State) : (setRV v s).regXV = s.regXV := rfl
@[simp] theorem setRV_regXI (v : Num32) (s : State) : (setRV v s).regXI = s.regXI := rfl
@[simp] theorem setRV_regRV (v : Num32) (s : State) : (setRV v s).regRV = v := rfl
@[simp] theorem setRV_regRI (v : Num32) (s : State) : (setRV v s).regRI = s.regRI := rfl
@[simp] theorem setRV_regSM (v : Num32) (s : State) : (setRV v s).regSM = s.regSM := rfl
@[simp] theorem setRV_raw (v : Num32) (s : State) : (setRV v s).raw = s.raw := rfl
@[simp] theorem setRV_shape (v : Num32) (s : State) : (setRV v s).shape = s.shape := rfl
@[simp] theorem setRV_va (v : Num32) (s : State) : (setRV v s).va = s.va := rfl
@[simp] theorem setRV_vr (v : Num32) (s : State) : (setRV v s).vr = s.vr := rfl
@[simp] theorem setRV_sq (v : Num32) (s : State) : (setRV v s).sq = s.sq := rfl
@[simp] theorem setRV_sf (v : Num32) (s : State) : (setRV v s).sf = s.sf := rfl
@[simp] theorem setRV_cd (v : Num32) (s : State) : (setRV v s).cd = s.cd := rfl
@[simp] theorem setRV_pk (v : Num32) (s : State) : (setRV v s).pk = s.pk := rfl
@[simp] theorem setRV_w (v : Num32) (s : State) : (setRV v s).w = s.w := rfl
@[simp] theorem setRV_out (v : Num32) (s : State) : (setRV v s).out = s.out := rfl
@[simp] theorem setRV_outShape (v : Num32) (s : State) : (setRV v s).outShape = s.outShape := rfl
@[simp] theorem setRV_params (v : Num32) (s : State) : (setRV v s).params = s.params := rfl
@[simp] theorem setRV_inbox (v : Num32) (s : State) : (setRV v s).inbox = s.inbox := rfl
@[simp] theorem setRV_replies (v : Num32) (s : State) : (setRV v s).replies = s.replies := rfl

/-! ### setPK -/

@[simp] theorem setPK_errors (xs : List U8) (s : State) : (setPK xs s).errors = s.errors := rfl
@[simp] theorem setPK_regB (xs : List U8) (s : State) : (setPK xs s).regB = s.regB := rfl
@[simp] theorem setPK_regS (xs : List U8) (s : State) : (setPK xs s).regS = s.regS := rfl
@[simp] theorem setPK_regK (xs : List U8) (s : State) : (setPK xs s).regK = s.regK := rfl
@[simp] theorem setPK_regXV (xs : List U8) (s : State) : (setPK xs s).regXV = s.regXV := rfl
@[simp] theorem setPK_regXI (xs : List U8) (s : State) : (setPK xs s).regXI = s.regXI := rfl
@[simp] theorem setPK_regRV (xs : List U8) (s : State) : (setPK xs s).regRV = s.regRV := rfl
@[simp] theorem setPK_regRI (xs : List U8) (s : State) : (setPK xs s).regRI = s.regRI := rfl
@[simp] theorem setPK_regSM (xs : List U8) (s : State) : (setPK xs s).regSM = s.regSM := rfl
@[simp] theorem setPK_raw (xs : List U8) (s : State) : (setPK xs s).raw = s.raw := rfl
@[simp] theorem setPK_shape (xs : List U8) (s : State) : (setPK xs s).shape = s.shape := rfl
@[simp] theorem setPK_va (xs : List U8) (s : State) : (setPK xs s).va = s.va := rfl
@[simp] theorem setPK_vr (xs : List U8) (s : State) : (setPK xs s).vr = s.vr := rfl
@[simp] theorem setPK_sq (xs : List U8) (s : State) : (setPK xs s).sq = s.sq := rfl
@[simp] theorem setPK_sf (xs : List U8) (s : State) : (setPK xs s).sf = s.sf := rfl
@[simp] theorem setPK_cd (xs : List U8) (s : State) : (setPK xs s).cd = s.cd := rfl
@[simp] theorem setPK_pk (xs : List U8) (s : State) : (setPK xs s).pk = xs := rfl
@[simp] theorem setPK_w (xs : List U8) (s : State) : (setPK xs s).w = s.w := rfl
@[simp] theorem setPK_out (xs : List U8) (s : State) : (setPK xs s).out = s.out := rfl
@[simp] theorem setPK_outShape (xs : List U8) (s : State) : (setPK xs s).outShape = s.outShape := rfl
@[simp] theorem setPK_params (xs : List U8) (s : State) : (setPK xs s).params = s.params := rfl
@[simp] theorem setPK_inbox (xs : List U8) (s : State) : (setPK xs s).inbox = s.inbox := rfl
@[simp] theorem setPK_replies (xs : List U8) (s : State) : (setPK xs s).replies = s.replies := rfl

/-! ### setCD -/

@[simp] theorem setCD_errors (xs : List U4) (s : State) : (setCD xs s).errors = s.errors := rfl
@[simp] theorem setCD_regB (xs : List U4) (s : State) : (setCD xs s).regB = s.regB := rfl
@[simp] theorem setCD_regS (xs : List U4) (s : State) : (setCD xs s).regS = s.regS := rfl
@[simp] theorem setCD_regK (xs : List U4) (s : State) : (setCD xs s).regK = s.regK := rfl
@[simp] theorem setCD_regXV (xs : List U4) (s : State) : (setCD xs s).regXV = s.regXV := rfl
@[simp] theorem setCD_regXI (xs : List U4) (s : State) : (setCD xs s).regXI = s.regXI := rfl
@[simp] theorem setCD_regRV (xs : List U4) (s : State) : (setCD xs s).regRV = s.regRV := rfl
@[simp] theorem setCD_regRI (xs : List U4) (s : State) : (setCD xs s).regRI = s.regRI := rfl
@[simp] theorem setCD_regSM (xs : List U4) (s : State) : (setCD xs s).regSM = s.regSM := rfl
@[simp] theorem setCD_raw (xs : List U4) (s : State) : (setCD xs s).raw = s.raw := rfl
@[simp] theorem setCD_shape (xs : List U4) (s : State) : (setCD xs s).shape = s.shape := rfl
@[simp] theorem setCD_va (xs : List U4) (s : State) : (setCD xs s).va = s.va := rfl
@[simp] theorem setCD_vr (xs : List U4) (s : State) : (setCD xs s).vr = s.vr := rfl
@[simp] theorem setCD_sq (xs : List U4) (s : State) : (setCD xs s).sq = s.sq := rfl
@[simp] theorem setCD_sf (xs : List U4) (s : State) : (setCD xs s).sf = s.sf := rfl
@[simp] theorem setCD_cd (xs : List U4) (s : State) : (setCD xs s).cd = xs := rfl
@[simp] theorem setCD_pk (xs : List U4) (s : State) : (setCD xs s).pk = s.pk := rfl
@[simp] theorem setCD_w (xs : List U4) (s : State) : (setCD xs s).w = s.w := rfl
@[simp] theorem setCD_out (xs : List U4) (s : State) : (setCD xs s).out = s.out := rfl
@[simp] theorem setCD_outShape (xs : List U4) (s : State) : (setCD xs s).outShape = s.outShape := rfl
@[simp] theorem setCD_params (xs : List U4) (s : State) : (setCD xs s).params = s.params := rfl
@[simp] theorem setCD_inbox (xs : List U4) (s : State) : (setCD xs s).inbox = s.inbox := rfl
@[simp] theorem setCD_replies (xs : List U4) (s : State) : (setCD xs s).replies = s.replies := rfl

/-! ### setW -/

@[simp] theorem setW_errors (w : Aggregate) (s : State) : (setW w s).errors = s.errors := rfl
@[simp] theorem setW_regB (w : Aggregate) (s : State) : (setW w s).regB = s.regB := rfl
@[simp] theorem setW_regS (w : Aggregate) (s : State) : (setW w s).regS = s.regS := rfl
@[simp] theorem setW_regK (w : Aggregate) (s : State) : (setW w s).regK = s.regK := rfl
@[simp] theorem setW_regXV (w : Aggregate) (s : State) : (setW w s).regXV = s.regXV := rfl
@[simp] theorem setW_regXI (w : Aggregate) (s : State) : (setW w s).regXI = s.regXI := rfl
@[simp] theorem setW_regRV (w : Aggregate) (s : State) : (setW w s).regRV = s.regRV := rfl
@[simp] theorem setW_regRI (w : Aggregate) (s : State) : (setW w s).regRI = s.regRI := rfl
@[simp] theorem setW_regSM (w : Aggregate) (s : State) : (setW w s).regSM = s.regSM := rfl
@[simp] theorem setW_raw (w : Aggregate) (s : State) : (setW w s).raw = s.raw := rfl
@[simp] theorem setW_shape (w : Aggregate) (s : State) : (setW w s).shape = s.shape := rfl
@[simp] theorem setW_va (w : Aggregate) (s : State) : (setW w s).va = s.va := rfl
@[simp] theorem setW_vr (w : Aggregate) (s : State) : (setW w s).vr = s.vr := rfl
@[simp] theorem setW_sq (w : Aggregate) (s : State) : (setW w s).sq = s.sq := rfl
@[simp] theorem setW_sf (w : Aggregate) (s : State) : (setW w s).sf = s.sf := rfl
@[simp] theorem setW_cd (w : Aggregate) (s : State) : (setW w s).cd = s.cd := rfl
@[simp] theorem setW_pk (w : Aggregate) (s : State) : (setW w s).pk = s.pk := rfl
@[simp] theorem setW_w (w : Aggregate) (s : State) : (setW w s).w = w := rfl
@[simp] theorem setW_out (w : Aggregate) (s : State) : (setW w s).out = s.out := rfl
@[simp] theorem setW_outShape (w : Aggregate) (s : State) : (setW w s).outShape = s.outShape := rfl
@[simp] theorem setW_params (w : Aggregate) (s : State) : (setW w s).params = s.params := rfl
@[simp] theorem setW_inbox (w : Aggregate) (s : State) : (setW w s).inbox = s.inbox := rfl
@[simp] theorem setW_replies (w : Aggregate) (s : State) : (setW w s).replies = s.replies := rfl

/-! ### setOut -/

@[simp] theorem setOut_errors (xs : List F16) (dims : List Word) (s : State) : (setOut xs dims s).errors = s.errors := rfl
@[simp] theorem setOut_regB (xs : List F16) (dims : List Word) (s : State) : (setOut xs dims s).regB = s.regB := rfl
@[simp] theorem setOut_regS (xs : List F16) (dims : List Word) (s : State) : (setOut xs dims s).regS = s.regS := rfl
@[simp] theorem setOut_regK (xs : List F16) (dims : List Word) (s : State) : (setOut xs dims s).regK = s.regK := rfl
@[simp] theorem setOut_regXV (xs : List F16) (dims : List Word) (s : State) : (setOut xs dims s).regXV = s.regXV := rfl
@[simp] theorem setOut_regXI (xs : List F16) (dims : List Word) (s : State) : (setOut xs dims s).regXI = s.regXI := rfl
@[simp] theorem setOut_regRV (xs : List F16) (dims : List Word) (s : State) : (setOut xs dims s).regRV = s.regRV := rfl
@[simp] theorem setOut_regRI (xs : List F16) (dims : List Word) (s : State) : (setOut xs dims s).regRI = s.regRI := rfl
@[simp] theorem setOut_regSM (xs : List F16) (dims : List Word) (s : State) : (setOut xs dims s).regSM = s.regSM := rfl
@[simp] theorem setOut_raw (xs : List F16) (dims : List Word) (s : State) : (setOut xs dims s).raw = s.raw := rfl
@[simp] theorem setOut_shape (xs : List F16) (dims : List Word) (s : State) : (setOut xs dims s).shape = s.shape := rfl
@[simp] theorem setOut_va (xs : List F16) (dims : List Word) (s : State) : (setOut xs dims s).va = s.va := rfl
@[simp] theorem setOut_vr (xs : List F16) (dims : List Word) (s : State) : (setOut xs dims s).vr = s.vr := rfl
@[simp] theorem setOut_sq (xs : List F16) (dims : List Word) (s : State) : (setOut xs dims s).sq = s.sq := rfl
@[simp] theorem setOut_sf (xs : List F16) (dims : List Word) (s : State) : (setOut xs dims s).sf = s.sf := rfl
@[simp] theorem setOut_cd (xs : List F16) (dims : List Word) (s : State) : (setOut xs dims s).cd = s.cd := rfl
@[simp] theorem setOut_pk (xs : List F16) (dims : List Word) (s : State) : (setOut xs dims s).pk = s.pk := rfl
@[simp] theorem setOut_w (xs : List F16) (dims : List Word) (s : State) : (setOut xs dims s).w = s.w := rfl
@[simp] theorem setOut_out (xs : List F16) (dims : List Word) (s : State) : (setOut xs dims s).out = xs := rfl
@[simp] theorem setOut_outShape (xs : List F16) (dims : List Word) (s : State) : (setOut xs dims s).outShape = dims := rfl
@[simp] theorem setOut_params (xs : List F16) (dims : List Word) (s : State) : (setOut xs dims s).params = s.params := rfl
@[simp] theorem setOut_inbox (xs : List F16) (dims : List Word) (s : State) : (setOut xs dims s).inbox = s.inbox := rfl
@[simp] theorem setOut_replies (xs : List F16) (dims : List Word) (s : State) : (setOut xs dims s).replies = s.replies := rfl

/-! ### answer -/

@[simp] theorem answer_errors (r : Reply) (s : State) : (answer r s).errors = s.errors := rfl
@[simp] theorem answer_regB (r : Reply) (s : State) : (answer r s).regB = s.regB := rfl
@[simp] theorem answer_regS (r : Reply) (s : State) : (answer r s).regS = s.regS := rfl
@[simp] theorem answer_regK (r : Reply) (s : State) : (answer r s).regK = s.regK := rfl
@[simp] theorem answer_regXV (r : Reply) (s : State) : (answer r s).regXV = s.regXV := rfl
@[simp] theorem answer_regXI (r : Reply) (s : State) : (answer r s).regXI = s.regXI := rfl
@[simp] theorem answer_regRV (r : Reply) (s : State) : (answer r s).regRV = s.regRV := rfl
@[simp] theorem answer_regRI (r : Reply) (s : State) : (answer r s).regRI = s.regRI := rfl
@[simp] theorem answer_regSM (r : Reply) (s : State) : (answer r s).regSM = s.regSM := rfl
@[simp] theorem answer_raw (r : Reply) (s : State) : (answer r s).raw = s.raw := rfl
@[simp] theorem answer_shape (r : Reply) (s : State) : (answer r s).shape = s.shape := rfl
@[simp] theorem answer_va (r : Reply) (s : State) : (answer r s).va = s.va := rfl
@[simp] theorem answer_vr (r : Reply) (s : State) : (answer r s).vr = s.vr := rfl
@[simp] theorem answer_sq (r : Reply) (s : State) : (answer r s).sq = s.sq := rfl
@[simp] theorem answer_sf (r : Reply) (s : State) : (answer r s).sf = s.sf := rfl
@[simp] theorem answer_cd (r : Reply) (s : State) : (answer r s).cd = s.cd := rfl
@[simp] theorem answer_pk (r : Reply) (s : State) : (answer r s).pk = s.pk := rfl
@[simp] theorem answer_w (r : Reply) (s : State) : (answer r s).w = s.w := rfl
@[simp] theorem answer_out (r : Reply) (s : State) : (answer r s).out = s.out := rfl
@[simp] theorem answer_outShape (r : Reply) (s : State) : (answer r s).outShape = s.outShape := rfl
@[simp] theorem answer_params (r : Reply) (s : State) : (answer r s).params = s.params := rfl
@[simp] theorem answer_inbox (r : Reply) (s : State) : (answer r s).inbox = s.inbox := rfl
@[simp] theorem answer_replies (r : Reply) (s : State) : (answer r s).replies = s.replies ++ [r] := rfl

/-! ### resetEvent -/

@[simp] theorem resetEvent_errors (s : State) : (resetEvent s).errors = State.reset.errors := rfl
@[simp] theorem resetEvent_regB (s : State) : (resetEvent s).regB = State.reset.regB := rfl
@[simp] theorem resetEvent_regS (s : State) : (resetEvent s).regS = State.reset.regS := rfl
@[simp] theorem resetEvent_regK (s : State) : (resetEvent s).regK = State.reset.regK := rfl
@[simp] theorem resetEvent_regXV (s : State) : (resetEvent s).regXV = State.reset.regXV := rfl
@[simp] theorem resetEvent_regXI (s : State) : (resetEvent s).regXI = State.reset.regXI := rfl
@[simp] theorem resetEvent_regRV (s : State) : (resetEvent s).regRV = State.reset.regRV := rfl
@[simp] theorem resetEvent_regRI (s : State) : (resetEvent s).regRI = State.reset.regRI := rfl
@[simp] theorem resetEvent_regSM (s : State) : (resetEvent s).regSM = State.reset.regSM := rfl
@[simp] theorem resetEvent_raw (s : State) : (resetEvent s).raw = State.reset.raw := rfl
@[simp] theorem resetEvent_shape (s : State) : (resetEvent s).shape = State.reset.shape := rfl
@[simp] theorem resetEvent_va (s : State) : (resetEvent s).va = State.reset.va := rfl
@[simp] theorem resetEvent_vr (s : State) : (resetEvent s).vr = State.reset.vr := rfl
@[simp] theorem resetEvent_sq (s : State) : (resetEvent s).sq = State.reset.sq := rfl
@[simp] theorem resetEvent_sf (s : State) : (resetEvent s).sf = State.reset.sf := rfl
@[simp] theorem resetEvent_cd (s : State) : (resetEvent s).cd = State.reset.cd := rfl
@[simp] theorem resetEvent_pk (s : State) : (resetEvent s).pk = State.reset.pk := rfl
@[simp] theorem resetEvent_w (s : State) : (resetEvent s).w = State.reset.w := rfl
@[simp] theorem resetEvent_out (s : State) : (resetEvent s).out = State.reset.out := rfl
@[simp] theorem resetEvent_outShape (s : State) : (resetEvent s).outShape = State.reset.outShape := rfl
@[simp] theorem resetEvent_params (s : State) : (resetEvent s).params = s.params := rfl
@[simp] theorem resetEvent_inbox (s : State) : (resetEvent s).inbox = s.inbox := rfl
@[simp] theorem resetEvent_replies (s : State) : (resetEvent s).replies = s.replies := rfl

/-! ### withFetchWord -/

@[simp] theorem withFetchWord_errors (s : State) (nbits w : Nat) : (s.withFetchWord nbits w).errors = s.errors := rfl
@[simp] theorem withFetchWord_regB (s : State) (nbits w : Nat) : (s.withFetchWord nbits w).regB = s.regB := rfl
@[simp] theorem withFetchWord_regS (s : State) (nbits w : Nat) : (s.withFetchWord nbits w).regS = s.regS := rfl
@[simp] theorem withFetchWord_regK (s : State) (nbits w : Nat) : (s.withFetchWord nbits w).regK = s.regK := rfl
@[simp] theorem withFetchWord_regXV (s : State) (nbits w : Nat) : (s.withFetchWord nbits w).regXV = s.regXV := rfl
@[simp] theorem withFetchWord_regXI (s : State) (nbits w : Nat) : (s.withFetchWord nbits w).regXI = s.regXI := rfl
@[simp] theorem withFetchWord_regRV (s : State) (nbits w : Nat) : (s.withFetchWord nbits w).regRV = s.regRV := rfl
@[simp] theorem withFetchWord_regRI (s : State) (nbits w : Nat) : (s.withFetchWord nbits w).regRI = s.regRI := rfl
@[simp] theorem withFetchWord_regSM (s : State) (nbits w : Nat) : (s.withFetchWord nbits w).regSM = s.regSM := rfl
@[simp] theorem withFetchWord_raw (s : State) (nbits w : Nat) : (s.withFetchWord nbits w).raw = s.raw := rfl
@[simp] theorem withFetchWord_shape (s : State) (nbits w : Nat) : (s.withFetchWord nbits w).shape = s.shape := rfl
@[simp] theorem withFetchWord_va (s : State) (nbits w : Nat) : (s.withFetchWord nbits w).va = s.va := rfl
@[simp] theorem withFetchWord_vr (s : State) (nbits w : Nat) : (s.withFetchWord nbits w).vr = s.vr := rfl
@[simp] theorem withFetchWord_sq (s : State) (nbits w : Nat) : (s.withFetchWord nbits w).sq = s.sq := rfl
@[simp] theorem withFetchWord_sf (s : State) (nbits w : Nat) : (s.withFetchWord nbits w).sf = s.sf := rfl
@[simp] theorem withFetchWord_cd (s : State) (nbits w : Nat) : (s.withFetchWord nbits w).cd = s.cd := rfl
@[simp] theorem withFetchWord_pk (s : State) (nbits w : Nat) : (s.withFetchWord nbits w).pk = s.pk := rfl
@[simp] theorem withFetchWord_w (s : State) (nbits w : Nat) : (s.withFetchWord nbits w).w = s.w := rfl
@[simp] theorem withFetchWord_out (s : State) (nbits w : Nat) : (s.withFetchWord nbits w).out = s.out := rfl
@[simp] theorem withFetchWord_outShape (s : State) (nbits w : Nat) : (s.withFetchWord nbits w).outShape = s.outShape := rfl
@[simp] theorem withFetchWord_params (s : State) (nbits w : Nat) : (s.withFetchWord nbits w).params = s.params := rfl
@[simp] theorem withFetchWord_inbox (s : State) (nbits w : Nat) : (s.withFetchWord nbits w).inbox = commandWrite nbits w :: s.inbox := rfl
@[simp] theorem withFetchWord_replies (s : State) (nbits w : Nat) : (s.withFetchWord nbits w).replies = s.replies := rfl

end Sys2Proof.Machine
end

