-- ==== Sys2Proof/Laws/Ops.lean ====
section
/-! SUPPORT. What the shared operations can do, said once: checks, guarded commands, the dispatch, the host moves and
one step. -/

namespace Sys2Proof.Machine

/-! ## Checks -/

@[simp] theorem firstFailing_nil : firstFailing [] = none := rfl

theorem firstFailing_cons (b : Bool) (f : Failure) (rest : List Check) :
    firstFailing ((b, f) :: rest) = if b then some f else firstFailing rest := rfl

@[simp] theorem firstFailing_cons_true (f : Failure) (rest : List Check) :
    firstFailing ((true, f) :: rest) = some f := rfl

@[simp] theorem firstFailing_cons_false (f : Failure) (rest : List Check) :
    firstFailing ((false, f) :: rest) = firstFailing rest := rfl

/-- The reported failure is one of the listed ones, and its condition holds. -/
theorem firstFailing_mem {checks : List Check} {f : Failure} (h : firstFailing checks = some f) :
    (true, f) ∈ checks := by
  induction checks with
  | nil => cases h
  | cons c rest ih =>
    obtain ⟨b, g⟩ := c
    cases b
    · exact List.mem_cons_of_mem _ (ih h)
    · obtain rfl : g = f := by simpa using h
      exact List.mem_cons_self

/-- No failure is reported exactly when every condition is false. -/
theorem firstFailing_eq_none {checks : List Check} :
    firstFailing checks = none ↔ ∀ c ∈ checks, c.1 = false := by
  induction checks with
  | nil => simp
  | cons c rest ih =>
    obtain ⟨b, g⟩ := c
    cases b <;> simp [ih]

/-! ## A guarded command -/

theorem guarded_of_fails {s : State} {checks : List Check} {f : Failure} {effect : State → State}
    (h : firstFailing checks = some f) : guarded s checks effect = .next (raise f s) := by
  simp [guarded, h]

theorem guarded_of_passes {s : State} {checks : List Check} {effect : State → State}
    (h : firstFailing checks = none) : guarded s checks effect = .next (finish (effect s)) := by
  simp [guarded, h]

/-- All a guarded command can do. -/
theorem guarded_cases {s t : State} {checks : List Check} {effect : State → State}
    (h : guarded s checks effect = .next t) :
    (∃ f, firstFailing checks = some f ∧ t = raise f s) ∨
    (firstFailing checks = none ∧ t = finish (effect s)) := by
  unfold guarded at h
  split at h
  · next f hf => exact .inl ⟨f, hf, by cases h; rfl⟩
  · next hn => exact .inr ⟨hn, by cases h; rfl⟩

/-- The code of an error kind is never 0. -/
theorem errorCode_ne_zero (k : ErrorKind) : errorCode k ≠ 0 := by cases k <;> decide

/-- What R112 reports, in the terms of the statements. -/
theorem saturate32_eq_cut32 (n : Nat) : saturate32 n = cut32 n := by
  unfold saturate32 cut32
  split_ifs with h
  · rw [Nat.min_eq_left (by omega)]
  · rw [Nat.min_eq_right (by omega)]; rfl

/-- From `2^32` on the value reported is `2^32 - 1`. -/
theorem cut32_of_le {n : Nat} (h : 2 ^ 32 ≤ n) : cut32 n = 0xFFFFFFFF#32 := if_neg (Nat.not_lt.2 h)

/-- A raised failure, as the four registers it reports. -/
theorem raise_eq_reported (f : Failure) (s : State) (h : f.chk < 2 ^ 32) :
    raise f s = { s with errors := reported (errorCode f.kind).toNat f.chk f.exp f.act } := by
  simp [raise, reported, saturate32_eq_cut32, show cut32 f.chk = BitVec.ofNat 32 f.chk from if_pos h]

/-- The product of a shape is the product of its dimensions, 1 where there are none (00_scope.md R12). -/
theorem product_eq_prod (dims : List Word) : product dims = (dims.map BitVec.toNat).prod := rfl

/-- The test of checks 21 and 36, as a proposition. -/
theorem shapeMismatch_iff (dims : List Word) (n : Nat) :
    shapeMismatch dims n = true ↔ (∃ d ∈ dims, d = 0) ∨ (dims.map BitVec.toNat).prod ≠ n := by
  simp [shapeMismatch, product_eq_prod]

/-! ## The commands -/

/-- The checks of a command (60_exceptions.md R113). -/
def checksOf (i : Instr) (s : State) : List Check :=
  match i with
  | .absmax => absmaxChecks s
  | .scompress => scompressChecks s
  | .sdecompress => sdecompressChecks s
  | .qnearest => []
  | .dequant => dequantChecks s
  | .qceil => []
  | .pack => packChecks s
  | .unpack => []
  | .encode => encodeChecks s
  | .decode => decodeChecks s.w

/-- What a command writes when its checks pass, the error registers aside. -/
def effectOf (i : Instr) (s : State) : State :=
  match i with
  | .absmax => setVR (absmaxPerBlock s.va s.regK.toNat) s
  | .scompress => scompressEffect s
  | .sdecompress => setVR (decompress s.sq s.sf s.regK.toNat s.regSM) s
  | .qnearest => setRI (quantizeNearest s.params.codeTable s.regXV) s
  | .dequant => setRV (dequantize s.params.codeTable (s.regXI.setWidth 4)) s
  | .qceil => setRI (quantizeCeil s.params.codeTable s.regXV) s
  | .pack => setPK (packCodes s.cd) s
  | .unpack => setCD (unpackBytes s.pk) s
  | .encode => setW (encodeAggregate s.params.rawFmt s.params.codeTable s.raw s.shape s.regB s.regS) s
  | .decode => setOut (decodeValues s.params.rawFmt s.params.codeTable s.w) s.w.originalShape s

/-- Every command is its checks and then its effect. -/
theorem exec_eq_guarded (i : Instr) (s : State) :
    exec i s = guarded s (checksOf i s) fun _ => effectOf i s := by
  cases i <;>
    simp only [exec, execAbsmax, execScompress, execSdecompress, execQnearest, execDequant, execQceil, execPack,
      execUnpack, execEncode, execDecode, guarded, checksOf, effectOf]

theorem exec_of_fails {i : Instr} {s : State} {f : Failure} (h : firstFailing (checksOf i s) = some f) :
    exec i s = .next (raise f s) := by rw [exec_eq_guarded, guarded_of_fails h]

/-- A command whose first failing check is `f` changes nothing but the four error registers, which report `f`. -/
theorem exec_reports {i : Instr} {s : State} {f : Failure} (h : firstFailing (checksOf i s) = some f)
    (hc : f.chk < 2 ^ 32) :
    exec i s = .next { s with errors := reported (errorCode f.kind).toNat f.chk f.exp f.act } := by
  rw [exec_of_fails h, raise_eq_reported f s hc]

theorem exec_of_passes {i : Instr} {s : State} (h : firstFailing (checksOf i s) = none) :
    exec i s = .next (finish (effectOf i s)) := by rw [exec_eq_guarded, guarded_of_passes h]

/-- All a command can do: report its first failing check, or write its results and clear the error registers. -/
theorem exec_cases {i : Instr} {s t : State} (h : exec i s = .next t) :
    (∃ f, firstFailing (checksOf i s) = some f ∧ t = raise f s) ∨
    (firstFailing (checksOf i s) = none ∧ t = finish (effectOf i s)) :=
  guarded_cases (exec_eq_guarded i s ▸ h)

/-! ## The host moves -/

/-- All a write of CMD can do. -/
theorem runWord_cases {c : Word} {s t : State} (h : runWord c s = .next t) :
    (∃ i, decode c = .ok i ∧ exec i s = .next t) ∨
    (∃ r, decode c = .error r ∧ t = illegalCommand c s) := by
  unfold runWord at h
  split at h
  · next i hi => exact .inl ⟨i, hi, h⟩
  · next r hr => exact .inr ⟨r, hr, by cases h; rfl⟩

/-- All a MemWrite can do: nothing on a space that is not host-writable, else the replacement within capacity. -/
theorem memWrite_cases {n : Nat} {x : Payload} {s t : State} (h : memWrite n x s = .next t) :
    ∃ sp, spaceOfNumber n = some sp ∧
      ((hostWritable sp = false ∧ t = s) ∨
        (hostWritable sp = true ∧ storeBuffer s sp x = some t ∧ payloadLength x ≤ capacity s.params sp)) := by
  unfold memWrite at h
  split at h
  · cases h
  · next sp hsp =>
    refine ⟨sp, hsp, ?_⟩
    split at h
    · next hw =>
      split at h
      · cases h
      · next u hu =>
        split at h
        · next hc => exact .inr ⟨hw, by cases h; exact hu, hc⟩
        · cases h
    · next hw => exact .inl ⟨by simpa using hw, by cases h; rfl⟩

/-- A MemWrite within capacity of a host-writable space is the replacement. -/
theorem memWrite_of_fits {n : Nat} {x : Payload} {s t : State} {sp : Space} (hsp : spaceOfNumber n = some sp)
    (hw : hostWritable sp = true) (ht : storeBuffer s sp x = some t)
    (hc : payloadLength x ≤ capacity s.params sp) : memWrite n x s = .next t := by
  simp [memWrite, hsp, hw, ht, hc]

/-- A MemWrite beyond capacity of a host-writable space is refused. -/
theorem memWrite_of_exceeds {n : Nat} {x : Payload} {s t : State} {sp : Space} (hsp : spaceOfNumber n = some sp)
    (hw : hostWritable sp = true) (ht : storeBuffer s sp x = some t)
    (hc : capacity s.params sp < payloadLength x) : memWrite n x s = .refused (.overCapacity n) := by
  simp [memWrite, hsp, hw, ht, Nat.not_le.2 hc]

/-- A MemWrite of a space that is not host-writable is ignored. -/
theorem memWrite_of_readOnly {n : Nat} {x : Payload} {s : State} {sp : Space} (hsp : spaceOfNumber n = some sp)
    (hw : hostWritable sp = false) : memWrite n x s = .next s := by simp [memWrite, hsp, hw]

theorem loadW_of_fits {w : Aggregate} {s : State} (h : aggregateFits s.params w) :
    loadW w s = .next (setW w s) := if_pos h

theorem loadW_of_exceeds {w : Aggregate} {s : State} (h : ¬ aggregateFits s.params w) :
    loadW w s = .refused .aggregateOverCapacity := if_neg h

/-- All a MemRead can do. -/
theorem memRead_cases {n i : Nat} {s t : State} (h : memRead n i s = .next t) : ∃ r, t = answer r s := by
  unfold memRead at h
  split at h
  · cases h
  · cases h; exact ⟨_, rfl⟩

/-- All a MemLen can do. -/
theorem memLen_cases {n : Nat} {s t : State} (h : memLen n s = .next t) : ∃ r, t = answer r s := by
  unfold memLen at h
  split at h
  · cases h
  · cases h; exact ⟨_, rfl⟩

/-- All a HostLoadW can do. -/
theorem loadW_cases {w : Aggregate} {s t : State} (h : loadW w s = .next t) :
    aggregateFits s.params w ∧ t = setW w s := by
  unfold loadW at h
  split at h
  · next hf => exact ⟨hf, by cases h; rfl⟩
  · cases h

/-- A stored register is one of the six RW registers, or nothing changes. -/
theorem storeReg_cases (s : State) (n : Nat) (v : Word) :
    storeReg s n v = { s with
      regB := if n = 5 then v else s.regB
      regS := if n = 6 then v else s.regS
      regK := if n = 7 then v else s.regK
      regXV := if n = 8 then v else s.regXV
      regXI := if n = 9 then v else s.regXI
      regSM := if n = 12 then v else s.regSM } := by
  unfold storeReg
  split <;> simp_all

/-- A stored buffer is one of the seven host-writable ones. -/
theorem storeBuffer_cases {s t : State} {sp : Space} {x : Payload} (h : storeBuffer s sp x = some t) :
    (∃ xs, sp = .raw ∧ x = .f16 xs ∧ t = { s with raw := xs }) ∨
    (∃ xs, sp = .shape ∧ x = .u32 xs ∧ t = { s with shape := xs }) ∨
    (∃ xs, sp = .va ∧ x = .num xs ∧ t = { s with va := xs }) ∨
    (∃ xs, sp = .sq ∧ x = .i8 xs ∧ t = { s with sq := xs }) ∨
    (∃ xs, sp = .sf ∧ x = .num xs ∧ t = { s with sf := xs }) ∨
    (∃ xs, sp = .cd ∧ x = .u4 xs ∧ t = { s with cd := xs }) ∨
    (∃ xs, sp = .pk ∧ x = .u8 xs ∧ t = { s with pk := xs }) := by
  unfold storeBuffer at h
  split at h <;> simp_all

/-- All one step can do: idle, or the oldest move, performed on the state without it. -/
theorem step_cases {s t : State} (h : step s = .next t) :
    (s.inbox = [] ∧ t = s) ∨
    (∃ m rest, s.inbox = m :: rest ∧ perform m { s with inbox := rest } = .next t) := by
  unfold step takeMove at h
  split at h
  · next hi => exact .inl ⟨hi, by cases h; rfl⟩
  · next m rest hi => exact .inr ⟨m, rest, hi, h⟩

theorem step_of_move {s : State} {m : HostMove} {rest : List HostMove} (h : s.inbox = m :: rest) :
    step s = perform m { s with inbox := rest } := by
  simp [step, takeMove, h]

/-- All a move can do to the aggregate, the error registers and the buffers, by kind of move. -/
theorem perform_cases {m : HostMove} {s t : State} (h : perform m s = .next t) :
    (∃ c, m = .writeReg 0 c ∧ runWord c s = .next t) ∨
    (∃ n v, m = .writeReg n v ∧ n ≠ 0 ∧ t = storeReg s n v) ∨
    (∃ r, t = answer r s) ∨
    (∃ n x, m = .memWrite n x ∧ memWrite n x s = .next t) ∨
    (∃ w, m = .loadW w ∧ loadW w s = .next t) ∨
    (m = .reset ∧ t = resetEvent s) := by
  cases m with
  | writeReg n v =>
    by_cases hn : n = 0
    · subst hn; exact .inl ⟨v, rfl, by simpa [perform, writeReg] using h⟩
    · refine .inr (.inl ⟨n, v, rfl, hn, ?_⟩)
      simp only [perform, writeReg, hn, if_false] at h
      cases h; rfl
  | readReg n => cases h; exact .inr (.inr (.inl ⟨_, rfl⟩))
  | memWrite n x => exact .inr (.inr (.inr (.inl ⟨n, x, rfl, h⟩)))
  | memRead n i => exact .inr (.inr (.inl (memRead_cases h)))
  | memLen n => exact .inr (.inr (.inl (memLen_cases h)))
  | loadW w => exact .inr (.inr (.inr (.inr (.inl ⟨w, rfl, h⟩))))
  | reset => cases h; exact .inr (.inr (.inr (.inr (.inr ⟨rfl, rfl⟩))))

end Sys2Proof.Machine
end

