-- ==== Sys2Proof/Laws/Memory.lean ====
section
/-! SUPPORT. The capacities of the buffers (10_state.md R21): what `Memory.wf` says field by field, and that reset and
every operation that writes a buffer keep it. -/

namespace Sys2Proof.Machine

/-- The form holds field by field. -/
theorem wf_iff (s : State) :
    Memory.wf s ↔
      s.raw.length ≤ s.params.nmax ∧ s.shape.length ≤ s.params.rankMax ∧ s.va.length ≤ s.params.nmax ∧
      s.vr.length ≤ s.params.nmax ∧ s.sq.length ≤ s.params.nmax ∧ s.sf.length ≤ s.params.nmax ∧
      s.cd.length ≤ s.params.nmax ∧ s.pk.length ≤ s.params.nmax / 2 ∧
      s.w.originalShape.length ≤ s.params.rankMax ∧ s.w.quantizedScalers.length ≤ s.params.nmax ∧
      s.w.quantizationFactor.length ≤ s.params.nmax ∧ s.w.packedBytes.length ≤ s.params.nmax / 2 ∧
      s.out.length ≤ s.params.nmax ∧ s.outShape.length ≤ s.params.rankMax := by
  simp [Memory.wf, allSpaces, bufferOf, payloadLength, capacity, Vector.length_toList]

theorem raise_keeps_wf {f : Failure} {s : State} (h : Memory.wf s) : Memory.wf (raise f s) := by
  simpa [wf_iff] using (wf_iff s).1 h

theorem finish_keeps_wf {s : State} (h : Memory.wf s) : Memory.wf (finish s) := by
  simpa [wf_iff] using (wf_iff s).1 h

theorem answer_keeps_wf {r : Reply} {s : State} (h : Memory.wf s) : Memory.wf (answer r s) := by
  simpa [wf_iff] using (wf_iff s).1 h

theorem storeReg_keeps_wf {n : Nat} {v : Word} {s : State} (h : Memory.wf s) : Memory.wf (storeReg s n v) := by
  rw [storeReg_cases]; simpa [wf_iff] using (wf_iff s).1 h

theorem memWrite_keeps_wf {n : Nat} {x : Payload} {s t : State} (h : Memory.wf s)
    (ht : memWrite n x s = .next t) : Memory.wf t := by
  have hs := (wf_iff s).1 h
  obtain ⟨sp, -, ⟨-, rfl⟩ | ⟨-, hst, hc⟩⟩ := memWrite_cases ht
  · exact h
  · rw [wf_iff]
    obtain ⟨xs, rfl, rfl, rfl⟩ | ⟨xs, rfl, rfl, rfl⟩ | ⟨xs, rfl, rfl, rfl⟩ | ⟨xs, rfl, rfl, rfl⟩ |
      ⟨xs, rfl, rfl, rfl⟩ | ⟨xs, rfl, rfl, rfl⟩ | ⟨xs, rfl, rfl, rfl⟩ := storeBuffer_cases hst <;>
      simp only [payloadLength, capacity] at hc <;> simp [hs, hc]

theorem loadW_keeps_wf {w : Aggregate} {s t : State} (h : Memory.wf s) (ht : loadW w s = .next t) :
    Memory.wf t := by
  have hs := (wf_iff s).1 h
  obtain ⟨hf, rfl⟩ := loadW_cases ht
  simp only [aggregateFits, capacity] at hf
  rw [wf_iff]
  simp [hs, hf]

theorem resetOf_wf (p : Params) (inbox : List HostMove) (replies : List Reply) :
    Memory.wf (State.resetOf p inbox replies) := by
  simp [wf_iff, State.resetOf, Aggregate.empty]

/-- The parameters assembled from the constants without a body meet the constraints of 00_scope.md R10. -/
theorem config_params_wf : Config.params.wf := by
  have := Config.nmaxAboveTwo.isLt
  refine ⟨?_, ?_, ?_⟩ <;> simp only [Config.params] <;> omega

/-- What each command writes fits (10_state.md R21, derived there). -/
theorem effectOf_keeps_wf {i : Instr} {s : State} (h : Memory.wf s) : Memory.wf (effectOf i s) := by
  have hs := (wf_iff s).1 h
  have hdiv : ∀ n k : Nat, n ≤ s.params.nmax → n / k ≤ s.params.nmax := fun n k hn =>
    (Nat.div_le_self n k).trans hn
  rw [wf_iff]
  cases i <;> simp [effectOf, scompressEffect, encodeAggregate, hs, hdiv] <;> omega

end Sys2Proof.Machine
end

