-- ==== Sys2Proof/Laws/Rounding.lean ====
section
/-! SUPPORT. What `roundHalfEven` and `roundBits` do, for every format: the nearest value, ties to even, infinity
exactly from half a unit above the largest finite value on (00_scope.md R14, R15). Everything is on natural numbers:
`n / d` is the exact result in multiples of the smallest subnormal. -/

namespace Sys2Proof.Machine

/-- `roundHalfEven n d` lies within half a unit of `n / d`, and is even when it lies exactly half a unit away. -/
theorem roundHalfEven_spec (n d : Nat) (hd : 0 < d) :
    2 * n ≤ 2 * (roundHalfEven n d * d) + d ∧ 2 * (roundHalfEven n d * d) ≤ 2 * n + d ∧
    (2 * n = 2 * (roundHalfEven n d * d) + d ∨ 2 * (roundHalfEven n d * d) = 2 * n + d →
      roundHalfEven n d % 2 = 0) := by
  have hdm := Nat.div_add_mod n d
  have hlt := Nat.mod_lt n hd
  have hc : d * (n / d) = n / d * d := Nat.mul_comm _ _
  simp only [roundHalfEven]
  split_ifs with h1 h2
  · refine ⟨by omega, by omega, by omega⟩
  · rw [Nat.add_mul, Nat.one_mul]
    refine ⟨by omega, by omega, by omega⟩
  · rcases Nat.mod_two_eq_zero_or_one (n / d) with h | h <;> simp only [h]
    · rw [Nat.add_zero]; refine ⟨by omega, by omega, fun _ => h⟩
    · rw [Nat.add_mul, Nat.one_mul]; refine ⟨by omega, by omega, fun _ => by omega⟩

/-- No integer is nearer to `n / d` than `roundHalfEven n d`; if one is equally near, the rounded one is even. -/
theorem roundHalfEven_nearest (n d k : Nat) (hd : 0 < d) (hk : k ≠ roundHalfEven n d) :
    |((roundHalfEven n d * d : Nat) : Int) - n| < |((k * d : Nat) : Int) - n| ∨
    (|((roundHalfEven n d * d : Nat) : Int) - n| = |((k * d : Nat) : Int) - n| ∧ roundHalfEven n d % 2 = 0) := by
  obtain ⟨h1, h2, h3⟩ := roundHalfEven_spec n d hd
  generalize roundHalfEven n d = r at *
  have hsep : k * d + d ≤ r * d ∨ r * d + d ≤ k * d := by
    rcases Nat.lt_or_gt_of_ne hk with h | h
    · left; calc k * d + d = (k + 1) * d := by ring
        _ ≤ r * d := Nat.mul_le_mul_right d h
    · right; calc r * d + d = (r + 1) * d := by ring
        _ ≤ k * d := Nat.mul_le_mul_right d h
  generalize k * d = K at *
  generalize r * d = R at *
  by_cases ht : 2 * n = 2 * R + d ∨ 2 * R = 2 * n + d
  · have he := h3 ht
    rcases abs_cases ((R : Int) - n) with ⟨a, _⟩ | ⟨a, _⟩ <;>
      rcases abs_cases ((K : Int) - n) with ⟨b, _⟩ | ⟨b, _⟩ <;> rw [a, b] <;> omega
  · left
    rcases abs_cases ((R : Int) - n) with ⟨a, _⟩ | ⟨a, _⟩ <;>
      rcases abs_cases ((K : Int) - n) with ⟨b, _⟩ | ⟨b, _⟩ <;> rw [a, b] <;> omega

/-! ## The value of a pattern without its sign -/

/-- The value, in smallest subnormals, that the bits below the sign stand for (R14). -/
def bitsValue (fmt : Format) (m : Nat) : Nat :=
  if m / 2 ^ fmt.fracBits = 0 then m % 2 ^ fmt.fracBits
  else (2 ^ fmt.fracBits + m % 2 ^ fmt.fracBits) * 2 ^ (m / 2 ^ fmt.fracBits - 1)

theorem magnitude_eq_bitsValue (fmt : Format) (w : Nat) :
    magnitude fmt w = bitsValue fmt (magnitudeBits fmt w) := rfl

/-- A significand of `f + 1` bits, or one more at the top, with shift `s`, is the pattern `s * 2^f + sig`. -/
theorem bitsValue_of_significand (fmt : Format) (s sig : Nat) (hlow : s ≠ 0 → 2 ^ fmt.fracBits ≤ sig)
    (hhigh : sig ≤ 2 ^ (fmt.fracBits + 1)) : bitsValue fmt (s * 2 ^ fmt.fracBits + sig) = sig * 2 ^ s := by
  have hp : 0 < 2 ^ fmt.fracBits := Nat.two_pow_pos _
  have h2 : 2 ^ (fmt.fracBits + 1) = 2 * 2 ^ fmt.fracBits := by rw [Nat.pow_succ]; ring
  unfold bitsValue
  generalize 2 ^ fmt.fracBits = P at *
  rw [h2] at hhigh
  rcases Nat.lt_or_ge sig P with h | h
  · have hs : s = 0 := by by_contra hne; have := hlow hne; omega
    subst hs
    simp [Nat.div_eq_of_lt h, Nat.mod_eq_of_lt h]
  · rcases Nat.lt_or_ge sig (2 * P) with h' | h'
    · have e : s * P + sig = (s + 1) * P + (sig - P) := by rw [Nat.add_mul, Nat.one_mul]; omega
      have hlt : sig - P < P := by omega
      rw [e, Nat.add_comm, Nat.add_mul_div_right _ _ hp, Nat.add_mul_mod_self_right, Nat.div_eq_of_lt hlt,
        Nat.mod_eq_of_lt hlt]
      simp only [Nat.zero_add, Nat.succ_ne_zero, if_false, Nat.add_sub_cancel]
      congr 1; omega
    · have e : s * P + sig = (s + 2) * P := by rw [Nat.add_mul]; omega
      have hsig : sig = 2 * P := by omega
      rw [e, Nat.mul_div_cancel _ hp, Nat.mul_mod_left, hsig]
      simp only [Nat.add_eq_zero_iff, OfNat.ofNat_ne_zero, and_false, if_false, Nat.add_zero]
      rw [show s + 2 - 1 = s + 1 by omega, Nat.pow_succ]; ring

/-- The pattern as shift and significand. -/
theorem bits_split (fmt : Format) (m : Nat) :
    ∃ s sig, m = s * 2 ^ fmt.fracBits + sig ∧ (s ≠ 0 → 2 ^ fmt.fracBits ≤ sig) ∧
      sig < 2 ^ (fmt.fracBits + 1) := by
  have hp : 0 < 2 ^ fmt.fracBits := Nat.two_pow_pos _
  have h2 : 2 ^ (fmt.fracBits + 1) = 2 * 2 ^ fmt.fracBits := by rw [Nat.pow_succ]; ring
  have hdm := Nat.div_add_mod m (2 ^ fmt.fracBits)
  have hlt := Nat.mod_lt m hp
  rw [h2]
  rw [Nat.mul_comm] at hdm
  generalize 2 ^ fmt.fracBits = P at *
  rcases Nat.eq_zero_or_pos (m / P) with h | h
  · refine ⟨0, m % P, ?_, fun h => absurd rfl h, by omega⟩
    rw [h] at hdm; omega
  · refine ⟨m / P - 1, P + m % P, ?_, fun _ => by omega, by omega⟩
    have : (m / P - 1) * P + P = m / P * P := by
      rw [← Nat.succ_mul, Nat.succ_eq_add_one, Nat.sub_add_cancel h]
    omega

/-- Larger patterns stand for larger values. -/
theorem bitsValue_strictMono (fmt : Format) : StrictMono (bitsValue fmt) := by
  refine strictMono_nat_of_lt_succ fun m => ?_
  obtain ⟨s, sig, rfl, hlow, hhigh⟩ := bits_split fmt m
  rw [bitsValue_of_significand fmt s sig hlow (by omega), Nat.add_assoc,
    bitsValue_of_significand fmt s (sig + 1) (fun h => (hlow h).trans (by omega)) (by omega)]
  exact Nat.mul_lt_mul_of_pos_right (by omega) (Nat.two_pow_pos _)

/-- A value is a multiple of `2^u`, or below `2^(f+u)`. -/
theorem bitsValue_coarse (fmt : Format) (m u : Nat) :
    (∃ k, bitsValue fmt m = k * 2 ^ u) ∨ bitsValue fmt m < 2 ^ fmt.fracBits * 2 ^ u := by
  obtain ⟨s, sig, rfl, hlow, hhigh⟩ := bits_split fmt m
  rw [bitsValue_of_significand fmt s sig hlow (by omega)]
  rcases Nat.lt_or_ge s u with h | h
  · right
    calc sig * 2 ^ s < 2 ^ (fmt.fracBits + 1) * 2 ^ s := Nat.mul_lt_mul_of_pos_right hhigh (Nat.two_pow_pos _)
      _ = 2 ^ fmt.fracBits * 2 ^ (s + 1) := by rw [Nat.pow_succ, Nat.pow_succ]; ring
      _ ≤ 2 ^ fmt.fracBits * 2 ^ u := Nat.mul_le_mul_left _ (Nat.pow_le_pow_right (by omega) h)
  · left
    exact ⟨sig * 2 ^ (s - u), by rw [Nat.mul_assoc, ← Nat.pow_add, Nat.sub_add_cancel h]⟩

/-! ## `roundBits` -/

/-- The shift `roundBits` uses. -/
def roundShift (fmt : Format) (n d : Nat) : Nat := Nat.log2 (n / d) - fmt.fracBits

/-- The pattern before it is cut at infinity. -/
def roundRaw (fmt : Format) (n d : Nat) : Nat :=
  roundShift fmt n d * 2 ^ fmt.fracBits + roundHalfEven n (d * 2 ^ roundShift fmt n d)

theorem roundBits_eq (fmt : Format) (n d : Nat) :
    roundBits fmt n d = min (roundRaw fmt n d) (infinityBits fmt) := rfl

/-- The scaled quotient has at most `f + 1` bits, and exactly that many when it was shifted. -/
theorem roundShift_bounds (fmt : Format) (n d : Nat) (hd : 0 < d) :
    n < 2 ^ (fmt.fracBits + 1) * (d * 2 ^ roundShift fmt n d) ∧
    (roundShift fmt n d ≠ 0 → 2 ^ fmt.fracBits * (d * 2 ^ roundShift fmt n d) ≤ n) := by
  unfold roundShift
  rcases Nat.eq_zero_or_pos (n / d) with h0 | h0
  · rw [h0]
    have hn : n < d := (Nat.div_eq_zero_iff_lt hd).1 h0
    simp only [Nat.log2_zero, Nat.zero_sub, Nat.pow_zero, Nat.mul_one, ne_eq, not_true_eq_false, false_implies,
      and_true]
    calc n < d := hn
      _ = 1 * d := (Nat.one_mul d).symm
      _ ≤ 2 ^ (fmt.fracBits + 1) * d := Nat.mul_le_mul_right d (Nat.two_pow_pos _)
  · have hlog1 : 2 ^ Nat.log2 (n / d) ≤ n / d := Nat.log2_self_le (by omega)
    have hlog2 : n / d < 2 ^ (Nat.log2 (n / d) + 1) := Nat.lt_log2_self
    generalize Nat.log2 (n / d) = L at *
    have hn : n < 2 ^ (L + 1) * d := (Nat.div_lt_iff_lt_mul hd).1 hlog2
    have hn' : 2 ^ L * d ≤ n := (Nat.le_div_iff_mul_le hd).1 hlog1
    constructor
    · calc n < 2 ^ (L + 1) * d := hn
        _ ≤ 2 ^ (fmt.fracBits + 1 + (L - fmt.fracBits)) * d :=
            Nat.mul_le_mul_right d (Nat.pow_le_pow_right (by omega) (by omega))
        _ = _ := by rw [Nat.pow_add]; ring
    · intro hs
      calc 2 ^ fmt.fracBits * (d * 2 ^ (L - fmt.fracBits)) = 2 ^ (fmt.fracBits + (L - fmt.fracBits)) * d := by
            rw [Nat.pow_add]; ring
        _ = 2 ^ L * d := by rw [Nat.add_sub_cancel' (by omega)]
        _ ≤ n := hn'

/-- The rounded significand keeps within those bounds. -/
theorem roundSig_bounds (fmt : Format) (n d : Nat) (hd : 0 < d) :
    (roundShift fmt n d ≠ 0 → 2 ^ fmt.fracBits ≤ roundHalfEven n (d * 2 ^ roundShift fmt n d)) ∧
    roundHalfEven n (d * 2 ^ roundShift fmt n d) ≤ 2 ^ (fmt.fracBits + 1) := by
  obtain ⟨hb1, hb2⟩ := roundShift_bounds fmt n d hd
  have hD : 0 < d * 2 ^ roundShift fmt n d := Nat.mul_pos hd (Nat.two_pow_pos _)
  obtain ⟨h1, h2, -⟩ := roundHalfEven_spec n _ hD
  generalize hR : roundHalfEven n (d * 2 ^ roundShift fmt n d) = r at *
  generalize d * 2 ^ roundShift fmt n d = D at *
  constructor
  · intro hs
    have := hb2 hs
    by_contra hlt
    have : (r + 1) * D ≤ 2 ^ fmt.fracBits * D := Nat.mul_le_mul_right D (by omega)
    rw [Nat.add_mul] at this
    omega
  · by_contra hgt
    have : (2 ^ (fmt.fracBits + 1) + 1) * D ≤ r * D := Nat.mul_le_mul_right D (by omega)
    rw [Nat.add_mul] at this
    omega

/-- The value of the pattern before it is cut at infinity. -/
theorem bitsValue_roundRaw (fmt : Format) (n d : Nat) (hd : 0 < d) :
    bitsValue fmt (roundRaw fmt n d) =
      roundHalfEven n (d * 2 ^ roundShift fmt n d) * 2 ^ roundShift fmt n d :=
  bitsValue_of_significand fmt _ _ (roundSig_bounds fmt n d hd).1 (roundSig_bounds fmt n d hd).2

/-- No value of the format, exponents unbounded, is nearer to `n / d` than the rounded one; if one is equally near,
the rounded pattern is even. -/
theorem roundRaw_nearest (fmt : Format) (hf : 1 ≤ fmt.fracBits) (n d m : Nat) (hd : 0 < d)
    (hm : m ≠ roundRaw fmt n d) :
    |((bitsValue fmt (roundRaw fmt n d) * d : Nat) : Int) - n| < |((bitsValue fmt m * d : Nat) : Int) - n| ∨
    (|((bitsValue fmt (roundRaw fmt n d) * d : Nat) : Int) - n| = |((bitsValue fmt m * d : Nat) : Int) - n| ∧
      roundRaw fmt n d % 2 = 0) := by
  have hne : bitsValue fmt m ≠ bitsValue fmt (roundRaw fmt n d) := fun h =>
    hm ((bitsValue_strictMono fmt).injective h)
  have hval := bitsValue_roundRaw fmt n d hd
  have hD : 0 < d * 2 ^ roundShift fmt n d := Nat.mul_pos hd (Nat.two_pow_pos _)
  have hb := (roundShift_bounds fmt n d hd).2
  have heven : roundHalfEven n (d * 2 ^ roundShift fmt n d) % 2 = 0 → roundRaw fmt n d % 2 = 0 := by
    intro h
    unfold roundRaw
    obtain ⟨p, hp⟩ : 2 ∣ 2 ^ fmt.fracBits := dvd_pow_self 2 (by omega)
    rw [hp, Nat.add_mod, h]
    simp [Nat.mul_left_comm]
  rw [hval] at hne ⊢
  have key : ∀ k, k ≠ roundHalfEven n (d * 2 ^ roundShift fmt n d) → _ := fun k hk =>
    roundHalfEven_nearest n (d * 2 ^ roundShift fmt n d) k hD hk
  have hassoc : ∀ k, k * 2 ^ roundShift fmt n d * d = k * (d * 2 ^ roundShift fmt n d) := fun k => by ring
  have hcoarse : (∃ k, bitsValue fmt m = k * 2 ^ roundShift fmt n d) ∨
      (roundShift fmt n d ≠ 0 ∧ bitsValue fmt m < 2 ^ fmt.fracBits * 2 ^ roundShift fmt n d) := by
    by_cases hs : roundShift fmt n d = 0
    · exact .inl ⟨bitsValue fmt m, by rw [hs]; simp⟩
    · exact (bitsValue_coarse fmt m _).imp id fun h => ⟨hs, h⟩
  rcases hcoarse with ⟨k, hk⟩ | ⟨hs, hlt⟩
  · rw [hk] at hne ⊢
    rw [hassoc, hassoc]
    rcases key k (fun h => hne (by rw [h])) with h | ⟨h, he⟩
    · exact .inl h
    · exact .inr ⟨h, heven he⟩
  · left
    have hb := hb hs
    have h1 : bitsValue fmt m * d < 2 ^ fmt.fracBits * (d * 2 ^ roundShift fmt n d) := by
      calc bitsValue fmt m * d < 2 ^ fmt.fracBits * 2 ^ roundShift fmt n d * d :=
            Nat.mul_lt_mul_of_pos_right hlt hd
        _ = _ := by ring
    rw [hassoc]
    have hle : |((roundHalfEven n (d * 2 ^ roundShift fmt n d) * (d * 2 ^ roundShift fmt n d) : Nat) : Int) - n| ≤
        |((2 ^ fmt.fracBits * (d * 2 ^ roundShift fmt n d) : Nat) : Int) - n| := by
      by_cases h : 2 ^ fmt.fracBits = roundHalfEven n (d * 2 ^ roundShift fmt n d)
      · rw [h]
      · rcases key _ h with h | ⟨h, -⟩
        · exact h.le
        · exact h.le
    refine lt_of_le_of_lt hle ?_
    generalize 2 ^ fmt.fracBits * (d * 2 ^ roundShift fmt n d) = A at *
    generalize bitsValue fmt m * d = C at *
    rw [abs_of_nonpos (by omega), abs_of_nonpos (by omega)]
    omega

/-! ## Overflow -/

/-- The value the pattern of infinity would have: the first one beyond the largest finite value. -/
theorem bitsValue_infinity (fmt : Format) (he : 2 ≤ fmt.expBits) :
    bitsValue fmt (infinityBits fmt) = 2 ^ fmt.fracBits * 2 ^ (2 ^ fmt.expBits - 2) := by
  have hp : 0 < 2 ^ fmt.fracBits := Nat.two_pow_pos _
  have h4 : 2 ^ 2 ≤ 2 ^ fmt.expBits := Nat.pow_le_pow_right (by omega) he
  unfold bitsValue infinityBits
  rw [Nat.mul_div_cancel _ hp, Nat.mul_mod_left, if_neg (by omega), Nat.add_zero,
    show 2 ^ fmt.expBits - 1 - 1 = 2 ^ fmt.expBits - 2 by omega]

/-- The largest finite value. -/
theorem bitsValue_largest (fmt : Format) (he : 2 ≤ fmt.expBits) :
    bitsValue fmt (infinityBits fmt - 1) = (2 ^ (fmt.fracBits + 1) - 1) * 2 ^ (2 ^ fmt.expBits - 3) := by
  have hp : 0 < 2 ^ fmt.fracBits := Nat.two_pow_pos _
  have h2 : 2 ^ (fmt.fracBits + 1) = 2 * 2 ^ fmt.fracBits := by rw [Nat.pow_succ]; ring
  have h4 : 2 ^ 2 ≤ 2 ^ fmt.expBits := Nat.pow_le_pow_right (by omega) he
  have e : infinityBits fmt - 1 = (2 ^ fmt.expBits - 3) * 2 ^ fmt.fracBits + (2 ^ (fmt.fracBits + 1) - 1) := by
    unfold infinityBits
    rw [h2, show 2 ^ fmt.expBits - 1 = (2 ^ fmt.expBits - 3) + 2 by omega, Nat.add_mul]
    omega
  rw [e, bitsValue_of_significand fmt _ _ (fun _ => by omega) (by omega)]

/-- Half a unit above the largest finite value, in smallest subnormals: from here on a result rounds beyond it. -/
def overflowUnits (fmt : Format) : Nat := (2 ^ (fmt.fracBits + 2) - 1) * 2 ^ (2 ^ fmt.expBits - 4)

/-- A result is cut at infinity exactly from half a unit above the largest finite value on. -/
theorem roundRaw_overflows (fmt : Format) (hf : 1 ≤ fmt.fracBits) (he : 3 ≤ fmt.expBits) (n d : Nat) (hd : 0 < d) :
    infinityBits fmt ≤ roundRaw fmt n d ↔ overflowUnits fmt * d ≤ n := by
  have hp : 0 < 2 ^ fmt.fracBits := Nat.two_pow_pos _
  have h8 : 2 ^ 3 ≤ 2 ^ fmt.expBits := Nat.pow_le_pow_right (by omega) he
  have hinf := bitsValue_infinity fmt (by omega)
  have hmax := bitsValue_largest fmt (by omega)
  have hpos : 0 < infinityBits fmt := Nat.mul_pos (by omega) hp
  have hevenInf : infinityBits fmt % 2 = 0 := by
    unfold infinityBits
    obtain ⟨p, hp⟩ : 2 ∣ 2 ^ fmt.fracBits := dvd_pow_self 2 (by omega)
    rw [hp, Nat.mul_left_comm, Nat.mul_mod_right]
  have h1 : 2 ^ (fmt.fracBits + 1) = 2 * 2 ^ fmt.fracBits := by rw [Nat.pow_succ]; ring
  have h2 : 2 ^ (fmt.fracBits + 2) = 4 * 2 ^ fmt.fracBits := by rw [Nat.pow_add]; ring
  have e3 : 2 ^ (2 ^ fmt.expBits - 3) = 2 * 2 ^ (2 ^ fmt.expBits - 4) := by
    rw [show 2 ^ fmt.expBits - 3 = (2 ^ fmt.expBits - 4) + 1 by omega, Nat.pow_succ]; ring
  have e2 : 2 ^ (2 ^ fmt.expBits - 2) = 4 * 2 ^ (2 ^ fmt.expBits - 4) := by
    rw [show 2 ^ fmt.expBits - 2 = (2 ^ fmt.expBits - 4) + 2 by omega, Nat.pow_add]; ring
  rw [e2] at hinf
  rw [e3, h1] at hmax
  unfold overflowUnits
  rw [h2]
  have hq : 0 < 2 ^ (2 ^ fmt.expBits - 4) := Nat.two_pow_pos _
  have hqd : 0 < 2 ^ (2 ^ fmt.expBits - 4) * d := Nat.mul_pos hq hd
  have hmono := bitsValue_strictMono fmt
  generalize 2 ^ (2 ^ fmt.expBits - 4) = Q at *
  generalize 2 ^ fmt.fracBits = P at *
  -- the three landmarks, times `d`
  have hM : bitsValue fmt (infinityBits fmt - 1) * d + Q * d = (4 * P - 1) * Q * d := by
    rw [hmax]; zify [show 1 ≤ 2 * P by omega, show 1 ≤ 4 * P by omega]; ring
  have hI : bitsValue fmt (infinityBits fmt) * d = (4 * P - 1) * Q * d + Q * d := by
    rw [hinf]; zify [show 1 ≤ 4 * P by omega]; ring
  generalize (4 * P - 1) * Q * d = T at *
  generalize Q * d = G at *
  constructor
  · intro h
    have hv : bitsValue fmt (infinityBits fmt) * d ≤ bitsValue fmt (roundRaw fmt n d) * d :=
      Nat.mul_le_mul_right d (hmono.monotone h)
    by_contra hlt
    rcases roundRaw_nearest fmt hf n d (infinityBits fmt - 1) hd (by omega) with hc | ⟨hc, -⟩ <;>
    · generalize bitsValue fmt (roundRaw fmt n d) * d = V at *
      generalize bitsValue fmt (infinityBits fmt - 1) * d = M at *
      rcases abs_cases ((V : Int) - n) with ⟨a, _⟩ | ⟨a, _⟩ <;>
        rcases abs_cases ((M : Int) - n) with ⟨b, _⟩ | ⟨b, _⟩ <;> rw [a, b] at hc <;> omega
  · intro h
    by_contra hlt
    have hv : bitsValue fmt (roundRaw fmt n d) * d ≤ bitsValue fmt (infinityBits fmt - 1) * d :=
      Nat.mul_le_mul_right d (hmono.monotone (by omega))
    have hv' : roundRaw fmt n d ≠ infinityBits fmt - 1 →
        bitsValue fmt (roundRaw fmt n d) * d < bitsValue fmt (infinityBits fmt - 1) * d := fun hne =>
      Nat.mul_lt_mul_of_pos_right (hmono (by omega)) hd
    rcases roundRaw_nearest fmt hf n d (infinityBits fmt) hd (by omega) with hc | ⟨hc, hpar⟩ <;>
    · generalize bitsValue fmt (roundRaw fmt n d) * d = V at *
      generalize bitsValue fmt (infinityBits fmt - 1) * d = M at *
      generalize bitsValue fmt (infinityBits fmt) * d = I at *
      rcases abs_cases ((V : Int) - n) with ⟨a, _⟩ | ⟨a, _⟩ <;>
        rcases abs_cases ((I : Int) - n) with ⟨b, _⟩ | ⟨b, _⟩ <;> rw [a, b] at hc <;> omega

end Sys2Proof.Machine
end

