-- ==== Sys2Proof/Laws/Numeric.lean ====
section
/-! SUPPORT. The numeric primitives in terms of `real`: what a rounded pattern stands for, that rounding is to nearest
even, and each operation on finite operands as one rounding of the exact result (00_scope.md R14, R15). -/

namespace Sys2Proof.Machine

/-- An integer from a sign and a magnitude. -/
def signed (neg : Bool) (m : Nat) : Int := if neg then -(m : Int) else (m : Int)

@[simp] theorem signed_false (m : Nat) : signed false m = m := rfl

@[simp] theorem signed_true (m : Nat) : signed true m = -(m : Int) := rfl

theorem abs_signed_sub (neg : Bool) (a b : Nat) : |signed neg a - signed neg b| = |(a : Int) - b| := by
  cases neg
  · rfl
  · simp only [signed_true]
    rw [neg_sub_neg, abs_sub_comm]

theorem signed_mul (neg : Bool) (a b : Nat) : signed neg a * b = signed neg (a * b) := by
  cases neg <;> simp

/-- Rounding to nearest even with signs: no value of the format is nearer to `± n / d` than the rounded one. -/
theorem roundRaw_nearest_signed (fmt : Format) (hf : 1 ≤ fmt.fracBits) (n d m : Nat) (hd : 0 < d) (neg negm : Bool)
    (hne : signed negm (bitsValue fmt m) ≠ signed neg (bitsValue fmt (roundRaw fmt n d))) :
    |signed neg (bitsValue fmt (roundRaw fmt n d)) * d - signed neg n| <
      |signed negm (bitsValue fmt m) * d - signed neg n| ∨
    (|signed neg (bitsValue fmt (roundRaw fmt n d)) * d - signed neg n| =
      |signed negm (bitsValue fmt m) * d - signed neg n| ∧ roundRaw fmt n d % 2 = 0) := by
  rw [signed_mul, signed_mul, abs_signed_sub]
  by_cases hs : negm = neg
  · subst hs
    rw [abs_signed_sub]
    exact roundRaw_nearest fmt hf n d m hd fun h => hne (by rw [h])
  · -- the other sign: zero lies between
    have hopp : |signed negm (bitsValue fmt m * d) - signed neg n| = ((bitsValue fmt m * d : Nat) : Int) + n := by
      cases neg <;> cases negm <;> simp_all only [signed_true, signed_false, ne_eq, not_true_eq_false,
        Bool.true_eq_false, Bool.false_eq_true, not_false_eq_true]
      · rw [abs_of_nonpos (by omega)]; omega
      · rw [abs_of_nonneg (by omega)]; omega
    rw [hopp]
    have h0 : bitsValue fmt 0 = 0 := by simp [bitsValue]
    rcases Nat.eq_zero_or_pos (roundRaw fmt n d) with hR | hR
    · rw [hR, h0] at hne ⊢
      have hC : 0 < bitsValue fmt m := by
        rcases Nat.eq_zero_or_pos (bitsValue fmt m) with h | h
        · rw [h] at hne; cases neg <;> cases negm <;> simp at hne
        · exact h
      have := Nat.mul_pos hC hd
      left
      generalize bitsValue fmt m * d = C at *
      rw [abs_of_nonpos (by omega)]; omega
    · rcases roundRaw_nearest fmt hf n d 0 hd (by omega) with h | ⟨h, he⟩ <;> rw [h0] at h <;>
        generalize |((bitsValue fmt (roundRaw fmt n d) * d : Nat) : Int) - n| = A at * <;>
        generalize bitsValue fmt m * d = C at * <;>
        rw [show |((0 * d : Nat) : Int) - n| = n by rw [abs_of_nonpos (by omega)]; omega] at h
      · left; omega
      · rcases Nat.eq_zero_or_pos C with hC | hC
        · right; exact ⟨by omega, he⟩
        · left; omega

/-- A distance in `real`, as a distance of integers. -/
theorem real_distance (x N : Int) (d u : Nat) (hd : 0 < d) :
    |(x : ℚ) / 2 ^ u - (N : ℚ) / d / 2 ^ u| = ((|x * d - N| : Int) : ℚ) / (d * 2 ^ u) := by
  have hd' : (d : ℚ) ≠ 0 := by exact_mod_cast hd.ne'
  have hp : (0 : ℚ) < d * 2 ^ u := by positivity
  rw [show (x : ℚ) / 2 ^ u - (N : ℚ) / d / 2 ^ u = ((x * d - N : Int) : ℚ) / (d * 2 ^ u) by
    push_cast; field_simp]
  rw [abs_div, abs_of_pos hp, Int.cast_abs]

/-! ## Patterns -/

theorem isNegative_withSign (fmt : Format) (neg : Bool) (bits : Nat) (h : bits < 2 ^ signPos fmt) :
    isNegative fmt (withSign fmt neg bits) = neg := by
  unfold isNegative withSign
  cases neg
  · simp [Nat.testBit_lt_two_pow h]
  · rw [if_pos rfl, Nat.testBit_two_pow_add_eq, Nat.testBit_lt_two_pow h]; rfl

theorem magnitudeBits_withSign (fmt : Format) (neg : Bool) (bits : Nat) (h : bits < 2 ^ signPos fmt) :
    magnitudeBits fmt (withSign fmt neg bits) = bits := by
  unfold magnitudeBits withSign
  cases neg
  · simp [Nat.mod_eq_of_lt h]
  · rw [if_pos rfl, Nat.add_mod_left, Nat.mod_eq_of_lt h]

theorem infinityBits_lt (fmt : Format) : infinityBits fmt < 2 ^ signPos fmt := by
  unfold infinityBits signPos
  rw [Nat.pow_add]
  exact Nat.mul_lt_mul_of_pos_right (Nat.sub_lt (Nat.two_pow_pos _) Nat.one_pos) (Nat.two_pow_pos _)

theorem roundBits_lt (fmt : Format) (n d : Nat) : roundBits fmt n d < 2 ^ signPos fmt :=
  lt_of_le_of_lt (Nat.min_le_right _ _) (infinityBits_lt fmt)

theorem withSign_lt (fmt : Format) (neg : Bool) (bits : Nat) (h : bits < 2 ^ signPos fmt) :
    withSign fmt neg bits < 2 ^ (signPos fmt + 1) := by
  unfold withSign
  rw [Nat.pow_succ]
  cases neg <;> simp <;> omega

/-! ## `Num` -/

theorem units_eq (a : Num32) : units a = signed (signOf a) (magOf a) := rfl

theorem magOf_eq (a : Num32) : magOf a = bitsValue binary32 (magnitudeBits binary32 a.toNat) := rfl

theorem roundNum_toNat (neg : Bool) (n d : Nat) :
    (roundNum neg n d).toNat = withSign binary32 neg (roundBits binary32 n d) := by
  unfold roundNum
  rw [BitVec.toNat_ofNat]
  exact Nat.mod_eq_of_lt (withSign_lt binary32 neg _ (roundBits_lt binary32 n d))

@[simp] theorem signOf_roundNum (neg : Bool) (n d : Nat) : signOf (roundNum neg n d) = neg := by
  unfold signOf
  rw [roundNum_toNat]
  exact isNegative_withSign _ _ _ (roundBits_lt binary32 n d)

theorem isFinite_roundNum (neg : Bool) (n d : Nat) :
    isFinite (roundNum neg n d) = decide (roundBits binary32 n d < infinityBits binary32) := by
  unfold isFinite isFinitePattern
  rw [roundNum_toNat, magnitudeBits_withSign _ _ _ (roundBits_lt binary32 n d)]

theorem magOf_roundNum (neg : Bool) (n d : Nat) :
    magOf (roundNum neg n d) = bitsValue binary32 (roundBits binary32 n d) := by
  rw [magOf_eq, roundNum_toNat, magnitudeBits_withSign _ _ _ (roundBits_lt binary32 n d)]

theorem overflow32_eq : overflow32 = (overflowUnits binary32 : ℚ) / 2 ^ 149 := by
  unfold overflow32 overflowUnits binary32
  norm_num

/-- `roundNum` is correct rounding of `± n / d` multiples of `2^-149` (00_scope.md R15). -/
theorem roundNum_roundsTo (neg : Bool) (n d : Nat) (hd : 0 < d) :
    roundsTo ((signed neg n : ℚ) / d / 2 ^ 149) (roundNum neg n d) := by
  have hd' : (0 : ℚ) < d := by exact_mod_cast hd
  have hover := roundRaw_overflows binary32 (by decide) (by decide) n d hd
  have habs : |(signed neg n : ℚ) / d / 2 ^ 149| = (n : ℚ) / d / 2 ^ 149 := by
    rw [abs_div, abs_div, abs_of_pos hd', abs_of_pos (by positivity : (0 : ℚ) < 2 ^ 149)]
    cases neg <;> simp
  have hiff : |(signed neg n : ℚ) / d / 2 ^ 149| < overflow32 ↔ ¬ overflowUnits binary32 * d ≤ n := by
    rw [habs, overflow32_eq, div_lt_div_iff_of_pos_right (by positivity), div_lt_iff₀ hd', not_le]
    exact_mod_cast Iff.rfl
  unfold roundsTo
  split_ifs with hlt hneg
  · have hR : roundRaw binary32 n d < infinityBits binary32 := by
      rw [hiff, ← hover] at hlt; omega
    have hbits : roundBits binary32 n d = roundRaw binary32 n d := by
      rw [roundBits_eq]; exact Nat.min_eq_left hR.le
    refine ⟨by rw [isFinite_roundNum, hbits]; simpa using hR, fun c _ hne => ?_⟩
    have hreal : real (roundNum neg n d) = (signed neg (bitsValue binary32 (roundRaw binary32 n d)) : ℚ) / 2 ^ 149 := by
      unfold real
      rw [units_eq, signOf_roundNum, magOf_roundNum, hbits]
    have hc : real c = (signed (signOf c) (bitsValue binary32 (magnitudeBits binary32 c.toNat)) : ℚ) / 2 ^ 149 := rfl
    rw [hreal, hc] at hne ⊢
    rw [real_distance _ _ d 149 hd, real_distance _ _ d 149 hd, div_lt_div_iff_of_pos_right (by positivity),
      div_left_inj' (by positivity)]
    have hne' : signed (signOf c) (bitsValue binary32 (magnitudeBits binary32 c.toNat)) ≠
        signed neg (bitsValue binary32 (roundRaw binary32 n d)) := fun h => hne (by rw [h])
    rcases roundRaw_nearest_signed binary32 (by decide) n d _ hd neg _ hne' with h | ⟨h, he⟩
    · left; exact_mod_cast h
    · right
      refine ⟨by exact_mod_cast h, ?_⟩
      rw [BitVec.getLsbD, roundNum_toNat, hbits, Nat.testBit_zero]
      unfold withSign binary32 signPos
      unfold binary32 at he
      cases neg <;> simp [Nat.add_mod, he]
  · have hR : infinityBits binary32 ≤ roundRaw binary32 n d := by rw [hover]; by_contra h; exact hlt (hiff.2 h)
    have hbits : roundBits binary32 n d = infinityBits binary32 := by
      rw [roundBits_eq]; exact Nat.min_eq_right hR
    have : neg = true := by
      cases neg
      · exact absurd hneg (not_lt.2 (by simp only [signed_false, Int.cast_natCast]; positivity))
      · rfl
    subst this
    unfold roundNum; rw [hbits]; decide
  · have hR : infinityBits binary32 ≤ roundRaw binary32 n d := by rw [hover]; by_contra h; exact hlt (hiff.2 h)
    have hbits : roundBits binary32 n d = infinityBits binary32 := by
      rw [roundBits_eq]; exact Nat.min_eq_right hR
    have : neg = false := by
      cases neg
      · rfl
      · exfalso
        have hn : 0 < n := by
          have := hover.1 hR
          have : 0 < overflowUnits binary32 * d := Nat.mul_pos (by decide) hd
          omega
        apply hneg
        have : (0 : ℚ) < n := by exact_mod_cast hn
        simp only [signed_true, Int.cast_neg, Int.cast_natCast, neg_div]
        have : (0 : ℚ) < (n : ℚ) / d / 2 ^ 149 := by positivity
        linarith
    subst this
    unfold roundNum; rw [hbits]; decide

/-! ## The operations on finite operands (00_scope.md R15) -/

theorem units_roundNum_zero (neg : Bool) : units (roundNum neg 0 1) = 0 := by cases neg <;> decide

/-- `roundSum` is correct rounding of `v` multiples of `2^-149`. -/
theorem roundSum_roundsTo (zeroNeg : Bool) (v : Int) : roundsTo ((v : ℚ) / 2 ^ 149) (roundSum zeroNeg v) := by
  unfold roundSum
  split_ifs with h
  · subst h
    have h0 : signed zeroNeg 0 = 0 := by cases zeroNeg <;> rfl
    simpa [h0] using roundNum_roundsTo zeroNeg 0 1 Nat.one_pos
  · have hv : signed (decide (v < 0)) v.natAbs = v := by
      unfold signed
      by_cases hn : v < 0
      · rw [decide_eq_true hn, if_pos rfl]; omega
      · rw [decide_eq_false hn, if_neg Bool.false_ne_true]; omega
    simpa [hv] using roundNum_roundsTo (decide (v < 0)) v.natAbs 1 Nat.one_pos

theorem fadd_of_finite {a b : Num32} (ha : isFinite a = true) (hb : isFinite b = true) :
    fadd a b = roundSum (signOf a && signOf b) (units a + units b) := by simp [fadd, ha, hb]

theorem fsub_of_finite {a b : Num32} (ha : isFinite a = true) (hb : isFinite b = true) :
    fsub a b = roundSum (signOf a && !signOf b) (units a - units b) := by simp [fsub, ha, hb]

theorem fmul_of_finite {a b : Num32} (ha : isFinite a = true) (hb : isFinite b = true) :
    fmul a b = roundNum (signOf a ^^ signOf b) (magOf a * magOf b) (2 ^ 149) := by simp [fmul, ha, hb]

theorem fdiv_of_finite {a b : Num32} (ha : isFinite a = true) (hb : isFinite b = true) (hz : isZero b = false) :
    fdiv a b = roundNum (signOf a ^^ signOf b) (magOf a * 2 ^ 149) (magOf b) := by simp [fdiv, ha, hb, hz]

theorem fabs_of_finite {a : Num32} (ha : isFinite a = true) : fabs a = a &&& 0x7FFFFFFF#32 := by simp [fabs, ha]

theorem fmax_of_finite {a b : Num32} (ha : isFinite a = true) (hb : isFinite b = true) :
    fmax a b = if units a < units b then b else a := by simp [fmax, ha, hb]

/-- A comparison of values is a comparison of multiples of `2^-149`. -/
theorem real_le_iff (a b : Num32) : real a ≤ real b ↔ units a ≤ units b := by
  rw [real, real, div_le_div_iff_of_pos_right (by positivity), Int.cast_le]

theorem real_lt_iff (a b : Num32) : real a < real b ↔ units a < units b := by
  rw [real, real, div_lt_div_iff_of_pos_right (by positivity), Int.cast_lt]

/-- A distance of values is a distance of multiples of `2^-149`. -/
theorem abs_real_sub (a b : Num32) : |real a - real b| = ((units a - units b).natAbs : ℚ) / 2 ^ 149 := by
  rw [real, real, ← sub_div, abs_div, abs_of_pos (by positivity : (0 : ℚ) < 2 ^ 149), Nat.cast_natAbs]
  push_cast
  rfl

/-- A finite pattern is zero exactly when its value is. -/
theorem isZero_iff_real {a : Num32} (ha : isFinite a = true) : isZero a = true ↔ real a = 0 := by
  unfold isZero real
  rw [units_eq]
  cases signOf a <;> simp [ha]

/-! ## Results that need no rounding -/

/-- A significand of at most 24 bits times a power of two is the value of a finite pattern of either sign. -/
theorem exists_units_eq (neg : Bool) (sig s : Nat) (hsig : sig < 2 ^ 24) (hs : s ≤ 253) :
    ∃ c : Num32, isFinite c = true ∧ units c = signed neg (sig * 2 ^ s) := by
  induction s generalizing sig with
  | zero => exact of_normal sig 0 hsig hs fun h => absurd rfl h
  | succ s ih =>
    rcases Nat.lt_or_ge sig (2 ^ 23) with h | h
    · obtain ⟨c, hc, hu⟩ := ih (2 * sig) (by omega) (by omega)
      exact ⟨c, hc, by rw [hu, Nat.pow_succ]; ring_nf⟩
    · exact of_normal sig (s + 1) hsig hs fun _ => h
where
  /-- The pattern itself, where the significand has 24 bits or no shift. -/
  of_normal (sig s : Nat) (hsig : sig < 2 ^ 24) (hs : s ≤ 253) (hlow : s ≠ 0 → 2 ^ 23 ≤ sig) :
      ∃ c : Num32, isFinite c = true ∧ units c = signed neg (sig * 2 ^ s) := by
    have hm : s * 2 ^ 23 + sig < infinityBits binary32 := by
      rw [show infinityBits binary32 = 255 * 2 ^ 23 from rfl]; omega
    have hb := withSign_lt binary32 neg _ (hm.trans (infinityBits_lt _))
    have hw : (BitVec.ofNat 32 (withSign binary32 neg (s * 2 ^ 23 + sig))).toNat =
        withSign binary32 neg (s * 2 ^ 23 + sig) := by rw [BitVec.toNat_ofNat]; exact Nat.mod_eq_of_lt hb
    refine ⟨BitVec.ofNat 32 (withSign binary32 neg (s * 2 ^ 23 + sig)), ?_, ?_⟩
    · rw [isFinite, isFinitePattern, hw, magnitudeBits_withSign _ _ _ (hm.trans (infinityBits_lt _))]
      exact decide_eq_true hm
    · rw [units_eq, magOf_eq, signOf, hw, isNegative_withSign _ _ _ (hm.trans (infinityBits_lt _)),
        magnitudeBits_withSign _ _ _ (hm.trans (infinityBits_lt _))]
      congr 1
      exact bitsValue_of_significand binary32 s sig hlow (le_of_lt hsig)

/-- A finite value lies below the threshold of overflow. -/
theorem abs_real_lt_overflow32 {c : Num32} (hc : isFinite c = true) : |real c| < overflow32 := by
  have hm : magOf c < overflowUnits binary32 := by
    have h : magnitudeBits binary32 c.toNat ≤ infinityBits binary32 - 1 := by
      unfold isFinite isFinitePattern at hc
      have := of_decide_eq_true hc; omega
    exact lt_of_le_of_lt ((bitsValue_strictMono binary32).monotone h) (by decide +kernel)
  have : |real c| = (magOf c : ℚ) / 2 ^ 149 := by
    rw [real, units_eq, abs_div, abs_of_pos (by positivity : (0 : ℚ) < 2 ^ 149)]
    cases signOf c <;> simp
  rw [this, overflow32_eq, div_lt_div_iff_of_pos_right (by positivity)]
  exact_mod_cast hm

/-- Rounding a value that a finite pattern has is exact. -/
theorem roundsTo_exact {q : ℚ} {r c : Num32} (h : roundsTo q r) (hc : isFinite c = true) (hq : real c = q) :
    isFinite r = true ∧ real r = q := by
  subst hq
  rw [roundsTo, if_pos (abs_real_lt_overflow32 hc)] at h
  refine ⟨h.1, ?_⟩
  by_contra hne
  rcases h.2 c hc (Ne.symm hne) with h | ⟨h, -⟩ <;> rw [sub_self, abs_zero] at h
  · exact absurd h (not_lt.2 (abs_nonneg _))
  · exact hne (sub_eq_zero.1 (abs_eq_zero.1 h))

end Sys2Proof.Machine
end

