-- ==== Sys2Proof/Laws/PerInstr.lean ====
section
/-! SUPPORT. Per command: it is well formed, its word is legal and is the word of 30_encoding.md R55, and decoding that
word gives it back. -/

namespace Sys2Proof.Laws.Encoding

/-- The encoding of a command is right in itself and read back by the decoder (30_encoding.md R53, R55). -/
def Statement (i : Instr) : Prop :=
  i.wf = true ∧ legalWord (encode i) = true ∧ encode i = Machine.commandWord i ∧ decode (encode i) = .ok i

theorem absmax : Statement .absmax := ⟨rfl, by decide, by decide, by rfl⟩
theorem scompress : Statement .scompress := ⟨rfl, by decide, by decide, by rfl⟩
theorem sdecompress : Statement .sdecompress := ⟨rfl, by decide, by decide, by rfl⟩
theorem qnearest : Statement .qnearest := ⟨rfl, by decide, by decide, by rfl⟩
theorem dequant : Statement .dequant := ⟨rfl, by decide, by decide, by rfl⟩
theorem qceil : Statement .qceil := ⟨rfl, by decide, by decide, by rfl⟩
theorem pack : Statement .pack := ⟨rfl, by decide, by decide, by rfl⟩
theorem unpack : Statement .unpack := ⟨rfl, by decide, by decide, by rfl⟩
theorem encode : Statement .encode := ⟨rfl, by decide, by decide, by rfl⟩
theorem decode : Statement .decode := ⟨rfl, by decide, by decide, by rfl⟩

end Sys2Proof.Laws.Encoding
end

