-- ==== Sys2Proof/Laws/Table.lean ====
section
/-! SUPPORT. The entries of a CodeTable: three ways to read one, and what a well-formed table says of them
(42_element_codec.md R77, R78; 93_implementation_defined.md U7). -/

namespace Sys2Proof.Machine

theorem tableWord_eq_get (ct : CodeTable) (i : Fin 16) : tableWord ct i = ct.get i := by
  have : i.val < ct.toList.length := by simp
  rw [tableWord, List.getD_eq_getElem _ _ this]; rfl

theorem dequantize_eq_tableWord (ct : CodeTable) (i : U4) : dequantize ct i = tableWord ct i.toNat :=
  (tableWord_eq_get ct i.toFin).symm

theorem isFinite_dequantize {ct : CodeTable} (h : codeTableWf ct) (i : U4) : isFinite (dequantize ct i) = true :=
  h.2.2.2.1 i.toFin

/-- The entries increase strictly, in multiples of `2^-149`. -/
theorem units_tableWord_lt {ct : CodeTable} (h : codeTableWf ct) {i j : Nat} (hij : i < j) (hj : j < 16) :
    units (tableWord ct i) < units (tableWord ct j) := by
  induction j with
  | zero => omega
  | succ j ih =>
    have hstep := h.2.2.2.2 ⟨j, by omega⟩
    rw [← tableWord_eq_get, ← tableWord_eq_get] at hstep
    rcases Nat.lt_succ_iff_lt_or_eq.1 hij with hlt | rfl
    · exact (ih hlt (by omega)).trans hstep
    · exact hstep

theorem defaultCodeTable_wf : codeTableWf defaultCodeTable := by decide +kernel

end Sys2Proof.Machine
end

