-- ==== Sys2Proof/Tests/Slice0.lean ====
section
/-! SUPPORT. Tests of the model against the worked vectors of 95_test_vectors.md (the vector is named at each test),
the smoke test of the well-formedness checks, and a witness for the hypotheses of every obligation that has some. -/

namespace Sys2Proof.Tests

open Sys2Proof.Machine

-- One theorem at a time: each theorem checked beside another takes a thread and its stack.
set_option Elab.async false

/-- The state after reset of a block with bfloat16 weights. -/
def blankB : State := State.resetOf ⟨.bfloat16, 64, 4, defaultCodeTable⟩ [] []

/-- The state after reset of a block with binary16 weights. -/
def blankH : State := State.resetOf ⟨.binary16, 64, 4, defaultCodeTable⟩ [] []

/-- The next state of an outcome. -/
def nextOf : Result → Option State
  | .next s => some s
  | .fault _ => none
  | .refused _ => none

/-- One field of the next state. -/
def field {α : Type} (r : Result) (f : State → α) : Option α := (nextOf r).map f

/-! ## Well-formedness: an ill-formed term for each check -/

theorem test_legal_word : legalWord 0x00000050#32 = true := by decide
theorem test_zero_field_refused : zeroFieldOk 0x00000150#32 = false ∧ legalWord 0x00000150#32 = false := by decide
theorem test_unit_field_refused : unitFieldOk 0x00000060#32 = false ∧ legalWord 0x00000060#32 = false := by decide
theorem test_fn_field_refused : fnFieldOk 0x00000033#32 = false ∧ legalWord 0x00000033#32 = false := by decide

/-! ## Decoding: words written out from 30_encoding.md R55 -/

theorem test_decode_absmax : decode 0b00000000000000000000000000010000#32 = .ok .absmax := by rfl
theorem test_decode_scompress : decode 0b00000000000000000000000000100000#32 = .ok .scompress := by rfl
theorem test_decode_sdecompress : decode 0b00000000000000000000000000100001#32 = .ok .sdecompress := by rfl
theorem test_decode_qnearest : decode 0b00000000000000000000000000110000#32 = .ok .qnearest := by rfl
theorem test_decode_dequant : decode 0b00000000000000000000000000110001#32 = .ok .dequant := by rfl
theorem test_decode_qceil : decode 0b00000000000000000000000000110010#32 = .ok .qceil := by rfl
theorem test_decode_pack : decode 0b00000000000000000000000001000000#32 = .ok .pack := by rfl
theorem test_decode_unpack : decode 0b00000000000000000000000001000001#32 = .ok .unpack := by rfl
theorem test_decode_encode : decode 0b00000000000000000000000001010000#32 = .ok .encode := by rfl
theorem test_decode_decode : decode 0b00000000000000000000000001010001#32 = .ok .decode := by rfl

/-- V-I4: bit 8 set makes ENCODE's low byte no command. -/
theorem test_table_word_bit_8 : decodeTableWord 32 0x150 = none ∧ decodeTableWord 32 0x50 = some .encode := by decide

/-! ## Numbers -/

/-- V-M1: the order of the summation decides the last bit. -/
theorem test_mean_order :
    meanFn [0x3F800000#32, 0x33800000#32, 0x33800000#32, 0x00000000#32] = 0x3E800000#32 ∧
    meanFn [0x00000000#32, 0x33800000#32, 0x33800000#32, 0x3F800000#32] = 0x3E800001#32 := by decide +kernel

/-! ## The commands -/

/-- V-A3: the absmax of a lone `-0` is `+0`. -/
theorem test_absmax_single_elements :
    field (exec .absmax { blankB with
      regK := 1
      va := [0x3F800000#32, 0xC0400000#32, 0x40000000#32, 0x3F000000#32, 0xBE800000#32, 0x3E000000#32,
        0x00000000#32, 0x80000000#32] }) (·.vr) =
    some [0x3F800000#32, 0x40400000#32, 0x40000000#32, 0x3F000000#32, 0x3E800000#32, 0x3E000000#32,
      0x00000000#32, 0x00000000#32] := by rfl

/-- V-A9: check 1 comes before check 2, and V-A7's check 2 reports K and the length. -/
theorem test_absmax_checks :
    field (exec .absmax blankB) (·.errors) = some ⟨1, 1, 1, 0⟩ ∧
    field (exec .absmax { blankB with regK := 3, va := List.replicate 8 0x3F800000#32 }) (·.errors) =
      some ⟨1, 2, 3, 8⟩ := by decide +kernel

/-- V-SC4: halves round to even, 128 is clamped to 127, -128 is not clamped. -/
theorem test_scompress_rounding :
    field (exec .scompress { blankB with
      regK := 8
      va := [0x40400000#32, 0x3F800000#32, 0x40004000#32, 0x3FFF8000#32, 0x4000C000#32, 0x3FFE8000#32,
        0x40014000#32, 0x3FFD8000#32] }) (fun t => (t.sq.map BitVec.toInt, t.sf, t.regSM)) =
    some ([127, -128, 0, 0, 2, -2, 2, -2], [0x43000000#32], 0x40000000#32) := by decide +kernel

/-- V-SC3: the second chunk is degenerate and has factor 1.0. -/
theorem test_scompress_degenerate_chunk :
    field (exec .scompress { blankB with
      regK := 2, va := [0x3F800000#32, 0x40400000#32, 0x40000000#32, 0x40000000#32] })
      (fun t => (t.sq.map BitVec.toInt, t.sf, t.regSM)) =
    some ([-128, 127, 0, 0], [0x43000000#32, 0x3F800000#32], 0x40000000#32) := by rfl

/-- V-SD5: a recovered scale may be negative. -/
theorem test_sdecompress_negative_scale :
    field (exec .sdecompress { blankB with
      regK := 1, sq := [0x40#8, 0x80#8], sf := [0x43000000#32, 0x42800000#32], regSM := 0x3F800000#32 }) (·.vr) =
    some [0x3FC00000#32, 0xBF800000#32] := by rfl

/-- V-SD6: values that cancel give `+0`. -/
theorem test_sdecompress_cancels_to_plus_zero :
    field (exec .sdecompress { blankB with
      regK := 1, sq := [0xC0#8], sf := [0x42800000#32], regSM := 0x3F800000#32 }) (·.vr) =
    some [0x00000000#32] := by rfl

/-- V-Q3: a tie goes to the lower index. -/
theorem test_qnearest_tie :
    field (exec .qnearest { blankB with regXV := 0xBF1C538F#32 }) (·.regRI) = some 1 := by rfl

/-- V-Q3: one unit nearer to entry 2 than the tie. -/
theorem test_qnearest_next_to_tie :
    field (exec .qnearest { blankB with regXV := 0xBF1C538E#32 }) (·.regRI) = some 2 := by rfl

/-- V-Q4: entry 14, and entry 14 of a block whose table differs there (U7). -/
theorem test_dequant_entry :
    field (exec .dequant { blankB with regXI := 14 }) (·.regRV) = some 0x3F391687#32 ∧
    field (exec .dequant
      { State.resetOf ⟨.bfloat16, 64, 4, defaultCodeTable.set 14 0x3F391688#32⟩ [] [] with regXI := 14 }) (·.regRV) =
    some 0x3F391688#32 := ⟨rfl, rfl⟩

/-- V-Q4: the whole register is compared, not its low four bits. -/
theorem test_dequant_whole_register :
    field (exec .dequant { blankB with regXI := 0x00010007#32 }) (fun t => (t.errors, t.regRV)) =
    some (⟨3, 9, 15, 65543⟩, 0) := by rfl

/-- V-Q1: one unit above CT[14] gives 15. -/
theorem test_qceil_above_last_but_one :
    field (exec .qceil { blankB with regXV := 0x3F391688#32 }) (·.regRI) = some 15 := by rfl

/-- V-Q1: -1e-10 is not above the entry 0.0. -/
theorem test_qceil_small_negative :
    field (exec .qceil { blankB with regXV := 0xAEDBE6FF#32 }) (·.regRI) = some 7 := by rfl

/-- V-P1 and V-P2: the first code goes to the high nibble. -/
theorem test_pack_nibble_order :
    field (exec .pack { blankB with cd := [10, 12, 0, 15] }) (·.pk) = some [0xAC#8, 0x0F#8] := by rfl

/-- V-P4: an odd number of codes. -/
theorem test_pack_odd :
    field (exec .pack { blankB with cd := [1, 2, 3] }) (fun t => (t.errors, t.pk)) = some (⟨1, 10, 2, 3⟩, []) := by
  rfl

/-- V-P7. -/
theorem test_unpack_bytes :
    field (exec .unpack { blankB with pk := [0x00#8, 0xFF#8, 0x5A#8] }) (·.cd) = some [0, 0, 15, 15, 5, 10] := by
  rfl

/-- V-E4, bfloat16. -/
theorem test_encode_bfloat16 :
    field (exec .encode { blankB with
      raw := [0xBF80#16, 0x3F00#16, 0x3E80#16, 0xBE00#16, 0x4040#16, 0xC040#16, 0x3F00#16, 0x3F33#16]
      shape := [8], regB := 2, regS := 2 }) (·.w) =
    some ⟨2, 2, [8], [0xE1#8, 0x80#8, 0x7F#8, 0xD9#8], [0x4301A559#32, 0x42913B6D#32], 0x3F9E6000#32,
      [0x0C#8, 0xF2#8, 0xF0#8, 0xEF#8]⟩ := by decide +kernel

/-- V-E4, binary16. -/
theorem test_encode_binary16 :
    field (exec .encode { blankH with
      raw := [0xBC00#16, 0x3800#16, 0x3400#16, 0xB000#16, 0x4200#16, 0xC200#16, 0x3800#16, 0x399A#16]
      shape := [8], regB := 2, regS := 2 }) (·.w) =
    some ⟨2, 2, [8], [0xE1#8, 0x80#8, 0x7F#8, 0xD9#8], [0x43019D25#32, 0x42914094#32], 0x3F9E6800#32,
      [0x0C#8, 0xF2#8, 0xF0#8, 0xEF#8]⟩ := by decide +kernel

/-- P1, bfloat16. -/
theorem test_decode_bfloat16 :
    field (exec .decode { blankB with
      w := ⟨4, 2, [2, 4], [0x80#8, 0x7F#8], [0x42AAAAAB#32], 0x40200000#32, [0xAC#8, 0xEF#8, 0xAC#8, 0xE0#8]⟩ })
      (fun t => (t.out, t.outShape)) =
    some ([0x3E7C#16, 0x3EE2#16, 0x3F39#16, 0x3F80#16, 0x3F7B#16, 0x3FE1#16, 0x4039#16, 0xC07F#16], [2, 4]) := by
  rfl

/-- V-D1, binary16: a negative recovered scale, and a code 7 that decodes to `-0`. -/
theorem test_decode_binary16 :
    field (exec .decode { blankH with
      w := ⟨2, 1, [4], [0x40#8, 0x80#8], [0x43000000#32, 0x42800000#32], 0x3F800000#32, [0x0F#8, 0x7B#8]⟩ })
      (·.out) = some [0xBE00#16, 0x3E00#16, 0x8000#16, 0xB568#16] := by rfl

/-! ## Steps -/

/-- V-I4 through a step: only the error registers change. -/
theorem test_step_illegal_word :
    step { blankB with inbox := [.writeReg 0 0x00000150#32] } =
      .next { blankB with errors := ⟨5, 40, 0, 336⟩ } := by rfl

/-- The first command after reset: ENCODE fails with check 20, there being no element (R31, R96). -/
theorem test_first_command_after_reset :
    field (step (State.reset.withFetchWord 32 0x50)) (fun t => (t.errors, t.inbox)) = some (⟨1, 20, 1, 0⟩, []) := by
  rfl

/-- V-H3: a write of a read-only register is ignored. -/
theorem test_write_of_read_only_register :
    field (step { blankB with inbox := [.writeReg 11 9] }) (fun t => t == blankB) = some true := by rfl

/-- V-H4: a write of a read-only space is ignored. -/
theorem test_write_of_read_only_space :
    field (step { blankB with inbox := [.memWrite 12 (.f16 [0x3C00#16])] }) (fun t => t == blankB) = some true := by
  rfl

/-- V-H6: reading at the length returns 0. -/
theorem test_read_beyond_length :
    field (step { blankB with va := [0x3F800000#32, 0x40000000#32], inbox := [.memRead 2 2] }) (·.replies) =
      some [.elem (.num 0x00000000#32)] := by rfl

/-- U11: an over-capacity MemWrite and a space number 15 have no next state. -/
theorem test_moves_without_meaning :
    nextOf (step { blankB with inbox := [.memWrite 1 (.u32 [1, 1, 1, 1, 1])] }) = none ∧
    nextOf (step { blankB with inbox := [.memLen 15] }) = none := by decide +kernel

/-! ## Witnesses: for each obligation with hypotheses, a concrete case that meets them, one per clause -/

/-- A block with the smallest parameters (00_scope.md R10), with one move pending. -/
def small (m : HostMove) : State := State.resetOf ⟨.bfloat16, 2, 1, defaultCodeTable⟩ [m] []

theorem witness_IllegalWordOnlySetsErrors :
    (small (.writeReg 0 0)).inbox = [.writeReg 0 0] ∧
    (∀ i : Instr, 0x00000000#32 ≠ commandWord i) ∧ (∀ i : Instr, 0x00000110#32 ≠ commandWord i) ∧
    (∀ i : Instr, 0x00000011#32 ≠ commandWord i) ∧ ∀ i : Instr, 0x00000060#32 ≠ commandWord i := by
  refine ⟨rfl, ?_, ?_, ?_, ?_⟩ <;> intro i <;> cases i <;> decide

theorem witness_StepRunsDecodedCommand :
    (small (.writeReg 0 0x51)).inbox = [.writeReg 0 0x51] ∧ decode 0x51 = .ok .decode ∧
    decodeTableWord 32 0x51 = some .decode ∧ decodeTableWord 8 0x10 = some .absmax := by decide

theorem witness_IdleStepChangesNothing : State.reset.inbox = [] := rfl

theorem witness_HostWriteRegStoresOnlyWritable :
    ∀ n ∈ [1, 4, 5, 6, 7, 8, 9, 10, 12, 13, 15, 16], (small (.writeReg n 3)).inbox = [.writeReg n 3] ∧ n ≠ 0 := by
  decide

theorem witness_HostReadRegReturnsByNumber :
    ∀ n ∈ [0, 1, 15, 16], (small (.readReg n)).inbox = [.readReg n] := by decide

theorem witness_MemWriteReplacesWholeBuffer :
    ((small (.memWrite 0 (.f16 [1, 2]))).inbox = [.memWrite 0 (.f16 [1, 2])] ∧
      [1, 2].length ≤ (small .reset).params.nmax) ∧
    ((small (.memWrite 1 (.u32 [2]))).inbox = [.memWrite 1 (.u32 [2])] ∧
      [2].length ≤ (small .reset).params.rankMax) ∧
    (small (.memWrite 2 (.num [1, 2]))).inbox = [.memWrite 2 (.num [1, 2])] ∧
    (small (.memWrite 4 (.i8 [1, 2]))).inbox = [.memWrite 4 (.i8 [1, 2])] ∧
    (small (.memWrite 5 (.num [1, 2]))).inbox = [.memWrite 5 (.num [1, 2])] ∧
    (small (.memWrite 6 (.u4 [1, 2]))).inbox = [.memWrite 6 (.u4 [1, 2])] ∧
    ((small (.memWrite 7 (.u8 [1]))).inbox = [.memWrite 7 (.u8 [1])] ∧
      [1].length ≤ (small .reset).params.nmax / 2) ∧
    ∀ n ∈ [3, 14], (small (.memWrite n (.u8 [1, 2, 3]))).inbox = [.memWrite n (.u8 [1, 2, 3])] := by decide

theorem witness_MemReadReturnsElementOrZero :
    ((0, Payload.f16 blankB.raw) ∈ [(0, Payload.f16 blankB.raw), (14, Payload.num blankB.params.codeTable.toList)] ∧
      (14, Payload.num blankB.params.codeTable.toList) ∈
        [(0, Payload.f16 blankB.raw), (14, Payload.num blankB.params.codeTable.toList)]) ∧
    (small (.memRead 14 15)).inbox = [.memRead 14 15] ∧ (small (.memRead 14 16)).inbox = [.memRead 14 16] ∧
    (small (.memLen 0)).inbox = [.memLen 0] := by decide

/-- An aggregate that fills the smallest block. -/
def fullAggregate : Aggregate := ⟨1, 2, [2], [1, 2], [0x3F800000#32], 0x3F800000#32, [0x77#8]⟩

theorem witness_LoadWReplacesAggregate :
    (small (.loadW fullAggregate)).inbox = [.loadW fullAggregate] ∧
    aggregateFits (small .reset).params fullAggregate := by decide

theorem witness_UndefinedHostMovesStop :
    (small (.memWrite 15 (.u8 []))).inbox = [.memWrite 15 (.u8 [])] ∧
    (small (.memRead 15 0)).inbox = [.memRead 15 0] ∧ (small (.memLen 15)).inbox = [.memLen 15] ∧
    (small (.memWrite 0 (.f16 [1, 2, 3]))).inbox = [.memWrite 0 (.f16 [1, 2, 3])] ∧
    (small (.memWrite 1 (.u32 [1, 2]))).inbox = [.memWrite 1 (.u32 [1, 2])] ∧
    (small (.memWrite 2 (.num [1, 2, 3]))).inbox = [.memWrite 2 (.num [1, 2, 3])] ∧
    (small (.memWrite 4 (.i8 [1, 2, 3]))).inbox = [.memWrite 4 (.i8 [1, 2, 3])] ∧
    (small (.memWrite 5 (.num [1, 2, 3]))).inbox = [.memWrite 5 (.num [1, 2, 3])] ∧
    (small (.memWrite 6 (.u4 [1, 2, 3]))).inbox = [.memWrite 6 (.u4 [1, 2, 3])] ∧
    (small (.memWrite 7 (.u8 [1, 2]))).inbox = [.memWrite 7 (.u8 [1, 2])] ∧
    (small .reset).params.nmax < 3 ∧ (small .reset).params.rankMax < 2 ∧ (small .reset).params.nmax / 2 < 2 := by
  decide

theorem witness_UndefinedHostMovesStop_elementType :
    (small (.memWrite 0 (.u8 []))).inbox = [.memWrite 0 (.u8 [])] ∧
    (∀ xs, Payload.u8 [] ≠ .f16 xs) ∧ (∀ xs, Payload.u8 [] ≠ .u32 xs) ∧ (∀ xs, Payload.u8 [] ≠ .num xs) ∧
    (∀ xs, Payload.u8 [] ≠ .i8 xs) ∧ (∀ xs, Payload.u8 [] ≠ .u4 xs) ∧ ∀ xs, Payload.u4 [] ≠ .u8 xs :=
  ⟨rfl, nofun, nofun, nofun, nofun, nofun, nofun⟩

theorem witness_ResetEventRestoresReset : (small .reset).inbox = [.reset] := rfl

/-- Finite operands: zeros, the smallest subnormal, the largest finite value; values that cancel. -/
theorem witness_AdditionSubtractionMultiplicationDivision :
    [0x00000000#32, 0x80000000#32, 0x00000001#32, 0x7F7FFFFF#32, 0xFF7FFFFF#32].all isFinite = true ∧
    real 0x3F800000#32 ≠ 0 ∧ real 0x3F800000#32 + real 0xBF800000#32 = 0 ∧
    real 0x3F800000#32 - real 0x3F800000#32 = 0 ∧ real 0x80000000#32 * real 0x3F800000#32 = 0 ∧
    real 0x80000000#32 = 0 ∧ real 0x00000001#32 ≠ 0 := by decide +kernel

theorem witness_WidenNarrow :
    ∀ fmt ∈ [RawFmt.binary16, RawFmt.bfloat16],
      isFinite16 fmt 0x8000#16 = true ∧ isFinite16 fmt 0x0001#16 = true ∧ isFinite16 fmt 0x7BFF#16 = true ∧
      isFinite 0x7F7FFFFF#32 = true ∧ isFinite 0x00000001#32 = true := by decide

theorem witness_RintIsNearestEvenAndSat8Clamps :
    |(rint 0x40200000#32 : ℚ) - real 0x40200000#32| = 1 / 2 ∧ (-129 < (-128 : Int) ∧ (127 : Int) < 128) := by
  decide +kernel

theorem witness_AbsmaxWritesBlockMaxima :
    blankB.regK = 0 ∧
    (∃ s : State, s.regK ≠ 0 ∧ s.va.length % s.regK.toNat ≠ 0) ∧
    ∃ s : State, s.regK ≠ 0 ∧ s.va.length % s.regK.toNat = 0 ∧ 0 < s.va.length / s.regK.toNat ∧
      ∀ i < s.regK.toNat, isFinite (s.va.getD (0 * s.regK.toNat + i) 0) = true :=
  ⟨rfl, ⟨{ blankB with regK := 2, va := [0] }, by decide⟩,
    ⟨{ blankB with regK := 2, va := [0x3F800000#32, 0x80000000#32] }, by decide⟩⟩

theorem witness_ScompressWritesCodesFactorsMean :
    blankB.va.length = 0 ∧
    (∃ s : State, s.va.length ≠ 0 ∧ s.regK = 0) ∧
    (∃ s : State, s.va.length ≠ 0 ∧ s.regK ≠ 0 ∧ s.va.length % s.regK.toNat ≠ 0) ∧
    ∃ s : State, s.va.length ≠ 0 ∧ s.regK ≠ 0 ∧ s.va.length % s.regK.toNat = 0 :=
  ⟨rfl, ⟨{ blankB with va := [0] }, by decide⟩, ⟨{ blankB with regK := 2, va := [0] }, by decide⟩,
    ⟨{ blankB with regK := 1, va := [0] }, by decide⟩⟩

/-- A chunk absmax that is zero, and one whose factor has a meaning (41_scaler_codec.md R68). -/
theorem witness_ScompressFactors :
    isZero 0x00000000#32 = true ∧ isZero 0x3F800000#32 = false ∧ isFinite 0x3F800000#32 = true ∧
    isFinite (fmul 0x40000000#32 0x3F800000#32) = true ∧
    isFinite (fdiv 0x43800000#32 (fmul 0x40000000#32 0x3F800000#32)) = true ∧
    isZero (fdiv 0x43800000#32 (fmul 0x40000000#32 0x3F800000#32)) = false := by decide +kernel

theorem witness_SdecompressWritesRecoveredScales :
    blankB.regK = 0 ∧
    (∃ s : State, s.regK ≠ 0 ∧ s.sq.length % s.regK.toNat ≠ 0) ∧
    (∃ s : State, s.regK ≠ 0 ∧ s.sq.length % s.regK.toNat = 0 ∧ s.sf.length ≠ s.sq.length / s.regK.toNat) ∧
    ∃ s : State, s.regK ≠ 0 ∧ s.sq.length % s.regK.toNat = 0 ∧ s.sf.length = s.sq.length / s.regK.toNat :=
  ⟨rfl, ⟨{ blankB with regK := 2, sq := [0] }, by decide⟩, ⟨{ blankB with regK := 1, sq := [0] }, by decide⟩,
    ⟨{ blankB with regK := 1, sq := [0], sf := [0x3F800000#32] }, by decide⟩⟩

/-- Integers at both ends of the exact range of i2f, and zero. -/
theorem witness_IntegerToNumRoundsToNearestEven :
    |(2 ^ 24 : Int)| ≤ 2 ^ 24 ∧ |(-2 ^ 24 : Int)| ≤ 2 ^ 24 ∧ (0 : Int) = 0 := by decide

/-- Two chunks of two scales, the second degenerate (41_scaler_codec.md R68, R72). -/
def twoChunks : State :=
  { blankB with va := [0x3F800000#32, 0x40400000#32, 0x40000000#32, 0x40000000#32], regK := 2 }

theorem witness_ScaleRoundTripIsLossyAndBounded :
    (isFinite 0x43000000#32 = true ∧ |real 0x43000000#32| ≤ 128 ∧ real 0x42FF0000#32 ≤ 255 / 2) ∧
    field (exec .scompress twoChunks) (fun t => (t.errors, t.regSM)) = some (⟨0, 0, 0, 0⟩, 0x40000000#32) ∧
    twoChunks.va.all (fun x => isFinite x && isFinite (fsub x 0x40000000#32)) = true ∧
    absmaxPerBlock (twoChunks.va.map fun x => fsub x 0x40000000#32) 2 = [0x3F800000#32, 0x00000000#32] ∧
    isFinite (fmul 0x40000000#32 0x3F800000#32) = true ∧
    isFinite (fdiv 0x43800000#32 (fmul 0x40000000#32 0x3F800000#32)) = true := by decide +kernel

/-- In the first chunk `a` is 1.0: the centered value -1.0 lies outside `a / 256` of `+a`. -/
theorem witness_ScaleRoundTrip_unclamped :
    real (fsub 0x3F800000#32 0x40000000#32) ≤ real 0x3F800000#32 - real 0x3F800000#32 / 256 := by decide +kernel

theorem witness_ScaleRoundTrip_example :
    ∃ s : State, s.va = [0x3F000000#32, 0x3FC00000#32] ∧ s.regK = 2 :=
  ⟨{ blankB with va := [0x3F000000#32, 0x3FC00000#32], regK := 2 }, rfl, rfl⟩

/-- A finite XV for QNEAREST and QCEIL: at the largest entry and one unit above it. -/
theorem witness_QnearestNearestQceil :
    (isFinite 0x3F800000#32 = true ∧ real 0x3F800000#32 ≤ 1) ∧
    isFinite 0x3F800001#32 = true ∧ 1 < real 0x3F800001#32 := by decide +kernel

theorem witness_QceilPicksSmallestEntryNotBelow :
    (∃ j < 16, real 0x3F800000#32 ≤ real (tableWord defaultCodeTable j)) ∧
    ∀ j < 16, real (tableWord defaultCodeTable j) < real 0x3F800001#32 := by decide +kernel

/-- The default CodeTable, and another that 93_implementation_defined.md U7 allows. -/
theorem witness_CodeTables :
    codeTableWf defaultCodeTable ∧ codeTableWf (defaultCodeTable.set 1 0xBF323A2B#32) ∧
    isFinite 0x80000001#32 = true := by decide +kernel

theorem witness_DequantReadsTableOrFails : 15 < (16#32).toNat ∧ (15#32).toNat ≤ 15 := by decide

theorem witness_PackJoinsNibblePairs :
    [1#4].length % 2 ≠ 0 ∧ [1#4, 2#4].length % 2 = 0 ∧ 0 < [1#4, 2#4].length / 2 := by decide

/-- One state per failing check of ENCODE, in increasing order of the check. -/
theorem witness_EncodeReportsFirstFailingCheck :
    blankB.raw.length = 0 ∧
    ([0x3F80#16].length ≠ 0 ∧ (([] : List Word).map BitVec.toNat).prod = 1 ∧
      ([2#32, 0#32].map BitVec.toNat).prod ≠ 1 ∧ ([2#32].map BitVec.toNat).prod ≠ 1) ∧
    ((∀ d ∈ [3#32], d ≠ 0) ∧ ([3#32].map BitVec.toNat).prod = 3 ∧ (2#32 ≠ 0 ∧ 3 % (2#32).toNat ≠ 0) ∧
      (1#32 ≠ 0 ∧ 3 % (1#32).toNat = 0 ∧ 3 / (1#32).toNat % (2#32).toNat ≠ 0) ∧
      (3 / (1#32).toNat % (3#32).toNat = 0 ∧ 3 % 2 ≠ 0)) := by
  refine ⟨rfl, by decide, by simp, ?_⟩
  decide

/-- A shape whose product is exactly `2^32`, and the largest product that is reported as it is: V-E9's shape, and one that
fits (60_exceptions.md R112). -/
theorem witness_ShapeProductsAtTheCut :
    2 ^ 32 ≤ ([65536#32, 65536#32].map BitVec.toNat).prod ∧ ([65536#32, 65536#32].map BitVec.toNat).prod ≠ 8 ∧
    ([0xFFFFFFFF#32].map BitVec.toNat).prod < 2 ^ 32 ∧ cut32 (2 ^ 32) = 0xFFFFFFFF#32 ∧
    cut32 (2 ^ 32 - 1) = 0xFFFFFFFF#32 ∧ cut32 (2 ^ 32 - 2) = 0xFFFFFFFE#32 := by decide

/-- The first block is all zero and the second is not, so both normalizations of R97 occur. -/
def twoBlocks : State := { blankB with raw := [0, 0, 0x3F80#16, 0xBF80#16], shape := [2, 2], regB := 2, regS := 1 }

theorem witness_EncodeBuildsAggregate :
    twoBlocks.raw.length ≠ 0 ∧ (∀ d ∈ twoBlocks.shape, d ≠ 0) ∧ (twoBlocks.shape.map BitVec.toNat).prod = twoBlocks.raw.length ∧
    twoBlocks.regB ≠ 0 ∧ twoBlocks.raw.length % twoBlocks.regB.toNat = 0 ∧ twoBlocks.regS ≠ 0 ∧
    twoBlocks.raw.length / twoBlocks.regB.toNat % twoBlocks.regS.toNat = 0 ∧ twoBlocks.raw.length % 2 = 0 := by
  refine ⟨by decide, by simp [twoBlocks], ?_⟩
  decide

theorem witness_EncodeBuildsAggregate_scales :
    (absmaxPerBlock (twoBlocks.raw.map (widen twoBlocks.params.rawFmt)) twoBlocks.regB.toNat).map isZero =
      [true, false] := by decide +kernel

theorem witness_NormalizedElementsStayInUnitRange :
    isFinite 0x40000000#32 = true ∧ isZero 0x80000000#32 = true ∧ 0 < real 0x40000000#32 ∧
    |real 0x3F800000#32| ≤ real 0x40000000#32 ∧ |real 0xC0000000#32| ≤ real 0x40000000#32 ∧
    real 0xC0000000#32 = -real 0x40000000#32 := by decide +kernel

/-- Half the first gap serves as `h`; an element at its scale, and a recovered scale that is not it. -/
theorem witness_ElementRoundTripIsBounded :
    codeTableWf defaultCodeTable ∧
    (∀ i < 15, real (tableWord defaultCodeTable (i + 1)) - real (tableWord defaultCodeTable i) ≤
      2 * ((real (tableWord defaultCodeTable 1) - real (tableWord defaultCodeTable 0)) / 2)) ∧
    |real 0xBF800000#32| ≤ 1 ∧ (0 < real 0x40000000#32 ∧ |real 0xC0000000#32| ≤ real 0x40000000#32) ∧
    isFinite 0x40000001#32 = true ∧ (real 0x00000000#32 = 0 ∧ |real 0x80000000#32| ≤ real 0x00000000#32) := by
  decide +kernel

/-- One aggregate per failing check of DECODE from 31 on (the reset state fails at 30). -/
theorem witness_DecodeReportsFirstFailingCheck :
    blankB.w.blockSize = 0 ∧ [0x77#8].length * 2 % (3#32).toNat ≠ 0 ∧ [0#8].length ≠ 2 / (1#32).toNat ∧
    [0#8].length = 2 / (2#32).toNat ∧ [0#8].length % (2#32).toNat ≠ 0 ∧ [0#8].length % (1#32).toNat = 0 ∧
    ([] : List Num32).length ≠ [0#8].length / (1#32).toNat ∧
    [0x3F800000#32].length = [0#8].length / (1#32).toNat ∧ ([3#32].map BitVec.toNat).prod ≠ 2 ∧ (∃ d ∈ [0#32], d = 0) := by
  refine ⟨rfl, by decide, by decide, by decide, by decide, by decide, by decide, by decide, by decide, 0, ?_, rfl⟩
  simp

theorem witness_DecodeRescalesEveryCode : consistent fullAggregate ∧ 0 < fullAggregate.packedBytes.length := by
  simp [consistent, fullAggregate]

theorem witness_DecodeAfterEncodeSucceeds :
    field (exec .encode twoBlocks) (fun t => decide (t.errors = ⟨0, 0, 0, 0⟩)) = some true := by rfl

theorem witness_ZeroTensorRoundTrips :
    (∀ h ∈ [0x0000#16, 0x8000#16], h = 0x0000#16 ∨ h = 0x8000#16) ∧ ([2#32].map BitVec.toNat).prod = [0x0000#16, 0x8000#16].length ∧
    2 < 2 ^ 31 ∧ 2 % (1#32).toNat = 0 ∧ 2 / (1#32).toNat % (2#32).toNat = 0 := by
  refine ⟨by simp, ?_⟩
  decide

/-- A command that fails and one that succeeds, for the statements about every command that has a next state. -/
theorem witness_CommandsHaveNextStates :
    field (exec .encode blankB) (·.errors.err) = some 1 ∧ field (exec .unpack blankB) (·.errors.err) = some 0 := by
  decide

theorem witness_ResultsDependOnlyOnOperands :
    readsAgree .absmax blankB { blankB with regXV := 5 } ∧
    exec .absmax { blankB with regK := 1 } = .next { blankB with regK := 1 } := ⟨⟨rfl, rfl⟩, rfl⟩

/-- A step with a next state in each case of the statements about every step. -/
theorem witness_StepsHaveNextStates :
    field (step (small (.loadW fullAggregate))) (fun t => decide (t.w = fullAggregate)) = some true ∧
    field (step (small (.writeReg 0 0))) (·.errors.err) = some 5 ∧
    field (step (small .reset)) (·.errors.err) = some 0 ∧
    field (step { twoBlocks with inbox := [.writeReg 0 0x50] }) (·.w.blockSize) = some 2 := by decide +kernel

theorem witness_EveryStepKeepsCapacities : Memory.wf (small .reset) := by decide

theorem witness_EveryStepKeepsErrorsLegal : legalErrors blankB.errors ∧ legalErrors ⟨4, 36, 2, 3⟩ := by decide

theorem witness_ResultIndexStaysInRange : blankB.regRI.toNat ≤ 15 ∧ (15#32).toNat ≤ 15 := by decide

theorem witness_CopiesAreIndependent :
    ∃ a b : System, (0 : Nat) ≠ 1 ∧
      systemStep 0 [small (.writeReg 5 7), small (.writeReg 6 9)] = some a ∧ systemStep 1 a = some b :=
  ⟨_, _, by decide, rfl, rfl⟩

end Sys2Proof.Tests
end

/-! SUPPORT. `rint` and `sat8` as 00_scope.md R16 has them: the nearest integer to a finite value, and the clamp to
`[-128, 127]`. -/

namespace Sys2Proof.Machine

/-- `rint` rounds the magnitude and keeps the sign. -/
theorem rint_of_finite {v : Num32} (hv : isFinite v = true) :
    rint v = signed (signOf v) (roundHalfEven (magOf v) (2 ^ 149)) := by simp [rint, hv, signed]

/-- `roundHalfEven_spec` as a bound on one distance. -/
theorem abs_roundHalfEven_sub (n d : Nat) (hd : 0 < d) :
    2 * |((roundHalfEven n d * d : Nat) : Int) - n| ≤ d ∧
    (2 * |((roundHalfEven n d * d : Nat) : Int) - n| = d → roundHalfEven n d % 2 = 0) := by
  obtain ⟨hlo, hhi, htie⟩ := roundHalfEven_spec n d hd
  rcases abs_cases (((roundHalfEven n d * d : Nat) : Int) - n) with ⟨h, -⟩ | ⟨h, -⟩ <;>
    rw [h] <;> exact ⟨by omega, fun ht => htie (by omega)⟩

/-- The distance of `rint v` from `v`, in multiples of `2^-149`: the signs agree, so it is that of the magnitudes. -/
theorem abs_rint_sub_real {v : Num32} (hv : isFinite v = true) :
    |(rint v : ℚ) - real v| =
      (|((roundHalfEven (magOf v) (2 ^ 149) * 2 ^ 149 : Nat) : Int) - magOf v| : Int) / 2 ^ 149 := by
  have h := real_distance (rint v) (units v) (2 ^ 149) 0 (by positivity)
  rw [rint_of_finite hv, signed_mul, units_eq, abs_signed_sub, ← rint_of_finite hv, ← units_eq] at h
  rwa [pow_zero, div_one, div_one, mul_one, Nat.cast_pow, Nat.cast_ofNat] at h

theorem signed_even {m : Nat} (neg : Bool) (hm : m % 2 = 0) : signed neg m % 2 = 0 := by
  cases neg
  · rw [signed_false]; omega
  · rw [signed_true]; omega

/-- `rint` of a finite value is the nearest integer, the even one on a half (00_scope.md R16). -/
theorem rint_nearest {v : Num32} (hv : isFinite v = true) :
    |(rint v : ℚ) - real v| ≤ 1 / 2 ∧ (|(rint v : ℚ) - real v| = 1 / 2 → rint v % 2 = 0) := by
  obtain ⟨hle, heven⟩ := abs_roundHalfEven_sub (magOf v) (2 ^ 149) (by positivity)
  rw [abs_rint_sub_real hv, div_le_div_iff₀ (by positivity) two_pos, div_eq_div_iff (by positivity) two_ne_zero]
  refine ⟨?_, fun htie => ?_⟩
  · rw [mul_comm, one_mul]
    exact_mod_cast hle
  · rw [mul_comm, one_mul] at htie
    rw [rint_of_finite hv]
    exact signed_even _ (heven (by exact_mod_cast htie))

/-- The byte `sat8 n` stands for the clamped integer: the clamp fits in eight bits. -/
theorem sat8_toInt (n : Int) : (sat8 n).toInt = max (-128) (min 127 n) := by
  rw [sat8, BitVec.toInt_ofInt]
  exact Int.bmod_eq_of_le (by omega) (by omega)

/-- Settles O23: `rint` by the rounding of the magnitude, `sat8` by the value of its byte. -/
theorem rintIsNearestEvenAndSat8Clamps : Obligations.RintIsNearestEvenAndSat8Clamps := by
  refine ⟨fun v hv => rint_nearest hv, fun n => ?_⟩
  rw [sat8_toInt]
  refine ⟨?_, ?_, ?_⟩ <;> omega

end Sys2Proof.Machine

/-! SUPPORT. The state after reset as 10_state.md R31 tabulates it. -/

namespace Sys2Proof.Machine

/-- A state that `State.resetOf` builds reads its CodeTable through the space CT (10_state.md R31). -/
theorem bufferOf_resetOf_ct (p : Params) (inbox : List HostMove) (replies : List Reply) :
    bufferOf (State.resetOf p inbox replies) .ct = .num p.codeTable.toList := rfl

/-- Settles O13: the fields are those `State.resetOf` gives, and CT holds the words of `defaultCodeTable`. -/
theorem resetLeavesTabulatedValues : Obligations.ResetLeavesTabulatedValues := by
  refine ⟨rfl, rfl, ?registers, ?values, ?indices, ?buffers, rfl, ?codeTable⟩
  case registers => exact ⟨rfl, rfl, rfl⟩
  case values => exact ⟨rfl, rfl, rfl⟩
  case indices => exact ⟨rfl, rfl⟩
  case buffers => exact ⟨rfl, rfl, rfl, rfl, rfl, rfl, rfl, rfl, rfl, rfl⟩
  case codeTable => exact bufferOf_resetOf_ct Config.params [] []

end Sys2Proof.Machine

/-! SUPPORT. HostLoadW as 20_memory.md R45 has it. -/

namespace Sys2Proof.Machine

/-- The four capacities of an aggregate as numbers (10_state.md R21). -/
theorem aggregateFits_iff (p : Params) (w : Aggregate) :
    aggregateFits p w ↔
      w.originalShape.length ≤ p.rankMax ∧ w.quantizedScalers.length ≤ p.nmax ∧
        w.quantizationFactor.length ≤ p.nmax ∧ w.packedBytes.length ≤ p.nmax / 2 := Iff.rfl

/-- Settles O11: the capacities are the only test of `loadW`, and taking the move changes no parameter. -/
theorem loadWReplacesAggregate : Obligations.LoadWReplacesAggregate := by
  intro s w rest hinbox hshape hscalers hfactors hpacked
  have hfits : aggregateFits { s with inbox := rest }.params w :=
    (aggregateFits_iff s.params w).2 ⟨hshape, hscalers, hfactors, hpacked⟩
  calc step s
    _ = perform (.loadW w) { s with inbox := rest } := step_of_move hinbox
    _ = loadW w { s with inbox := rest } := rfl
    _ = .next (setW w { s with inbox := rest }) := loadW_of_fits hfits
    _ = .next { s with inbox := rest, w := w } := rfl

end Sys2Proof.Machine

/-! SUPPORT. The decoder against the command words of 30_encoding.md R53 to R55: a word is its three fields, and the
fields of a word that decodes are those of the command. -/

namespace Sys2Proof.Machine

/-- A command word is its three fields from the top (30_encoding.md R51). -/
theorem append_fields (c : Word) : (zeroField c ++ unitField c) ++ fnField c = c := by
  have hupper : zeroField c ++ unitField c = c.extractLsb' 4 28 :=
    BitVec.extractLsb'_append_extractLsb'_eq_extractLsb' rfl
  have hword : c.extractLsb' 4 28 ++ fnField c = c.extractLsb' 0 32 :=
    BitVec.extractLsb'_append_extractLsb'_eq_extractLsb' rfl
  rw [hupper, hword, BitVec.extractLsb'_eq_self]

/-- The statements of Laws/PerInstr.lean, for every command. -/
theorem encoding_statement : ∀ i : Instr, Laws.Encoding.Statement i
  | .absmax => Laws.Encoding.absmax
  | .scompress => Laws.Encoding.scompress
  | .sdecompress => Laws.Encoding.sdecompress
  | .qnearest => Laws.Encoding.qnearest
  | .dequant => Laws.Encoding.dequant
  | .qceil => Laws.Encoding.qceil
  | .pack => Laws.Encoding.pack
  | .unpack => Laws.Encoding.unpack
  | .encode => Laws.Encoding.encode
  | .decode => Laws.Encoding.decode

theorem encode_eq_commandWord (i : Instr) : encode i = commandWord i := by
  obtain ⟨-, -, hword, -⟩ := encoding_statement i
  exact hword

@[simp] theorem decode_encode (i : Instr) : decode (encode i) = .ok i := by
  obtain ⟨-, -, -, hdecode⟩ := encoding_statement i
  exact hdecode

/-- `decodeFields` answers a command only at that command's own unit and function number (30_encoding.md R55). -/
theorem fields_of_decodeFields {unit fn : Nat} {i : Instr} (h : decodeFields unit fn = .ok i) :
    unit = (unitOf i).toNat ∧ fn = (fnOf i).toNat := by
  unfold decodeFields at h
  split at h
  case h_6 => cases h
  all_goals split at h <;> cases h <;> exact ⟨rfl, rfl⟩

/-- The fields of a word that decodes (30_encoding.md R51, R55). -/
theorem fields_of_decode {c : Word} {i : Instr} (h : decode c = .ok i) :
    zeroField c = 0 ∧ unitField c = unitOf i ∧ fnField c = fnOf i := by
  unfold decode at h
  split at h
  · next hzero =>
    obtain ⟨hunit, hfn⟩ := fields_of_decodeFields h
    exact ⟨hzero, BitVec.eq_of_toNat_eq hunit, BitVec.eq_of_toNat_eq hfn⟩
  · cases h

theorem decode_eq_ok_iff_encode (c : Word) (i : Instr) : decode c = .ok i ↔ c = encode i := by
  refine ⟨fun h => ?_, fun h => h ▸ decode_encode i⟩
  obtain ⟨hzero, hunit, hfn⟩ := fields_of_decode h
  rw [← append_fields c, hzero, hunit, hfn]
  rfl

theorem decode_eq_ok_iff_commandWord (c : Word) (i : Instr) : decode c = .ok i ↔ c = commandWord i := by
  rw [decode_eq_ok_iff_encode, encode_eq_commandWord]

/-- The commands in the order of 30_encoding.md R55. -/
def commands : List Instr :=
  [.absmax, .scompress, .sdecompress, .qnearest, .dequant, .qceil, .pack, .unpack, .encode, .decode]

theorem mem_commands (i : Instr) : i ∈ commands := by cases i <;> decide

/-- The ten opcodes of 30_encoding.md R53 are the command words as numbers. -/
theorem mem_opcodes_iff (n : Nat) :
    n ∈ [0x10, 0x20, 0x21, 0x30, 0x31, 0x32, 0x40, 0x41, 0x50, 0x51] ↔ ∃ i, (commandWord i).toNat = n := by
  have hmap : commands.map (fun i => (commandWord i).toNat) =
      [0x10, 0x20, 0x21, 0x30, 0x31, 0x32, 0x40, 0x41, 0x50, 0x51] := rfl
  rw [← hmap, List.mem_map]
  exact exists_congr fun i => and_iff_right (mem_commands i)

/-- A command word holds an opcode in bits 7:0 and nothing above (30_encoding.md R51). -/
theorem commandWord_lt (i : Instr) : (commandWord i).toNat < 256 := by cases i <;> decide

theorem eq_commandWord_iff (c : Word) (i : Instr) :
    c = commandWord i ↔ c.toNat / 256 = 0 ∧ (commandWord i).toNat = c.toNat % 256 := by
  have hlt := commandWord_lt i
  rw [← BitVec.toNat_inj]
  omega

/-- Settles O1: the words that decode are the command words, and those are the words below 256 that are opcodes. -/
theorem legalWordsSelectTheirCommand : Obligations.LegalWordsSelectTheirCommand := by
  refine ⟨fun c => ?_, decode_eq_ok_iff_commandWord⟩
  calc (∃ i, decode c = .ok i)
    _ ↔ ∃ i, c.toNat / 256 = 0 ∧ (commandWord i).toNat = c.toNat % 256 :=
      exists_congr fun i => (decode_eq_ok_iff_commandWord c i).trans (eq_commandWord_iff c i)
    _ ↔ c.toNat / 256 = 0 ∧ ∃ i, (commandWord i).toNat = c.toNat % 256 := exists_and_left
    _ ↔ _ := and_congr_right fun _ => (mem_opcodes_iff _).symm

end Sys2Proof.Machine

/-! SUPPORT. The words of the default CodeTable against the decimal literals (42_element_codec.md R77, R78), and
DEQUANT (R85). -/

namespace Sys2Proof.Machine

/-! ## The literals of the CodeTable -/

theorem signed_natAbs (z : Int) : signed (decide (z < 0)) z.natAbs = z := by
  unfold signed
  split_ifs with h <;> simp only [decide_eq_true_eq] at h <;> omega

/-- The `Num` nearest to the rational number `z / d`. -/
def nearestNum (z : Int) (d : Nat) : Num32 := roundNum (decide (z < 0)) (z.natAbs * 2 ^ 149) d

/-- `nearestNum` is correct rounding: `roundNum` counts in multiples of `2^-149`, which cancel. -/
theorem nearestNum_roundsTo (z : Int) {d : Nat} (hd : 0 < d) : roundsTo ((z : ℚ) / d) (nearestNum z d) := by
  have hunits : signed (decide (z < 0)) (z.natAbs * 2 ^ 149) = z * 2 ^ 149 := by
    rw [← signed_mul, signed_natAbs]; norm_cast
  have hround := roundNum_roundsTo (decide (z < 0)) (z.natAbs * 2 ^ 149) d hd
  rwa [hunits, div_right_comm, Int.cast_mul, Int.cast_pow, Int.cast_ofNat,
    mul_div_cancel_right₀ _ (by positivity)] at hround

/-- The literals of 42_element_codec.md R77 without the decimal point: each has at most four decimals. -/
def tenThousandths : List Int :=
  [-10000, -6962, -5251, -3949, -2844, -1848, -911, 0, 796, 1609, 2461, 3379, 4407, 5626, 7230, 10000]

theorem tableLiteral_eq_map : tableLiteral = tenThousandths.map fun z : Int => (z : ℚ) / (10000 : Nat) := by
  norm_num [tableLiteral, tenThousandths]

/-- The rounding of each literal, computed, is the word 42_element_codec.md R78 lists. -/
theorem defaultCodeTable_eq_map :
    defaultCodeTable.toList = tenThousandths.map fun z => nearestNum z 10000 := by decide +kernel

theorem getD_tableLiteral (i : Nat) :
    tableLiteral.getD i 0 = ((tenThousandths.getD i 0 : Int) : ℚ) / (10000 : Nat) := by
  rw [tableLiteral_eq_map, ← List.getD_map (f := fun z : Int => (z : ℚ) / (10000 : Nat)), Int.cast_zero, zero_div]

theorem tableWord_defaultCodeTable (i : Nat) :
    tableWord defaultCodeTable i = nearestNum (tenThousandths.getD i 0) 10000 := by
  rw [tableWord, defaultCodeTable_eq_map, ← List.getD_map (f := fun z => nearestNum z 10000)]
  rfl

/-- The CodeTable after reset is the default one (10_state.md R31). -/
@[simp] theorem reset_codeTable : State.reset.params.codeTable = defaultCodeTable := rfl

/-- Settles O28: each word is the rounding of its literal, and the default table is well formed. -/
theorem codeTableRoundsTheLiterals : Obligations.CodeTableRoundsTheLiterals := by
  unfold Obligations.CodeTableRoundsTheLiterals
  rw [reset_codeTable]
  refine ⟨fun i _ => ?_, fun i hi => ?_⟩
  · rw [getD_tableLiteral, tableWord_defaultCodeTable]
    exact nearestNum_roundsTo _ (by decide)
  · rw [real_lt_iff]
    exact units_tableWord_lt defaultCodeTable_wf (Nat.lt_succ_self i) (by omega)

/-! ## DEQUANT -/

/-- A register value is reported as it is: it fits 32 bits (60_exceptions.md R112). -/
@[simp] theorem cut32_toNat (w : Word) : cut32 w.toNat = w := by
  rw [cut32, if_pos w.isLt, BitVec.ofNat_toNat, BitVec.setWidth_eq]

/-- Check 9 is DEQUANT's only check (42_element_codec.md R85). -/
theorem firstFailing_dequant (s : State) :
    firstFailing (checksOf .dequant s) =
      if 15 < s.regXI.toNat then some ⟨.indexRange, 9, 15, s.regXI.toNat⟩ else none := by
  simp [checksOf, dequantChecks, firstFailing_cons]

/-- An index of at most 15 is its own low four bits, so DEQUANT reads that entry. -/
theorem dequantize_setWidth (ct : CodeTable) {x : Word} (hx : x.toNat ≤ 15) :
    dequantize ct (x.setWidth 4) = tableWord ct x.toNat := by
  rw [dequantize_eq_tableWord, BitVec.toNat_setWidth, Nat.mod_eq_of_lt (by omega)]

/-- Settles O32: check 9 fails exactly above 15, and the write is the table entry. -/
theorem dequantReadsTableOrFails : Obligations.DequantReadsTableOrFails := by
  refine fun s => ⟨fun hover => ?_, fun hle => ?_⟩
  · have hfails := (firstFailing_dequant s).trans (if_pos hover)
    rw [exec_reports hfails (show 9 < 2 ^ 32 by decide)]
    simp only [reported, cut32_toNat]
    rfl
  · have hpasses := (firstFailing_dequant s).trans (if_neg (Nat.not_lt.2 hle))
    calc exec .dequant s
      _ = .next (finish (setRV (dequantize s.params.codeTable (s.regXI.setWidth 4)) s)) := exec_of_passes hpasses
      _ = .next (finish (setRV (tableWord s.params.codeTable s.regXI.toNat) s)) := by
        rw [dequantize_setWidth _ hle]
      _ = _ := rfl

end Sys2Proof.Machine

/-! SUPPORT. PACK and UNPACK, code by code (43_packer.md R89 to R93). -/

namespace Sys2Proof.Machine

/-! ## The elements of pack and unpack -/

/-- Byte `k` of pack joins codes `2k` and `2k + 1` (43_packer.md R89). -/
theorem packCodes_getD (cs : List U4) (k : Nat) (hk : k < cs.length / 2) :
    (packCodes cs).getD k 0 = packByte (cs.getD (2 * k) 0) (cs.getD (2 * k + 1) 0) := by
  induction cs using packCodes.induct generalizing k with
  | case1 hi lo rest ih =>
    cases k with
    | zero => rfl
    | succ k => exact ih k (by simp only [List.length_cons] at hk; omega)
  | case2 c => simp at hk
  | case3 => simp at hk

/-- Codes `2k` and `2k + 1` of unpack are the nibbles of byte `k`, high one first (43_packer.md R90). Past the end both
sides are the default `0`. -/
theorem unpackBytes_getD (ys : List U8) (k : Nat) :
    (unpackBytes ys).getD (2 * k) 0 = highNibble (ys.getD k 0) ∧
    (unpackBytes ys).getD (2 * k + 1) 0 = lowNibble (ys.getD k 0) := by
  induction ys generalizing k with
  | nil => simp only [unpackBytes, List.getD_nil]; decide
  | cons y ys ih =>
    cases k with
    | zero => exact ⟨rfl, rfl⟩
    | succ k => exact ih k

/-! ## PACK and UNPACK -/

/-- Check 10 is PACK's only check (43_packer.md R92). -/
theorem firstFailing_pack (s : State) :
    firstFailing (checksOf .pack s) =
      if s.cd.length % 2 ≠ 0 then some ⟨.shape, 10, 2, s.cd.length⟩ else none := by
  simp [checksOf, packChecks, firstFailing_cons]

/-- Settles O34: check 10 fails exactly on an odd count, and byte `k` of the write is `packCodes_getD`. -/
theorem packJoinsNibblePairs : Obligations.PackJoinsNibblePairs := by
  refine fun s => ⟨fun hodd => ?_, fun heven => ⟨packCodes s.cd, ?_, packCodes_length s.cd, fun k hk => ?_⟩⟩
  · exact exec_reports ((firstFailing_pack s).trans (if_pos hodd)) (show 10 < 2 ^ 32 by decide)
  · exact exec_of_passes ((firstFailing_pack s).trans (if_neg (not_not.2 heven)))
  · rw [packCodes_getD s.cd k hk, packByte_toNat]

/-- Settles O35: UNPACK has no check, and the codes of the write are `unpackBytes_getD`. -/
theorem unpackSplitsBytes : Obligations.UnpackSplitsBytes := by
  refine fun s => ⟨unpackBytes s.pk, ?_, unpackBytes_length s.pk, fun k _ => ?_⟩
  · exact exec_of_passes (i := .unpack) rfl
  · obtain ⟨hhigh, hlow⟩ := unpackBytes_getD s.pk k
    rw [hhigh, hlow]
    exact ⟨highNibble_toNat _, lowNibble_toNat _⟩

end Sys2Proof.Machine

/-! SUPPORT. An illegal word written to CMD (60_exceptions.md R116): what the decoder rejects, and what is then
reported. -/

namespace Sys2Proof.Machine

/-- The four registers of R116: the word fits 32 bits, so ERRACT holds it as it is. -/
theorem illegalCommand_eq (c : Word) (s : State) : illegalCommand c s = { s with errors := ⟨5, 40, 0, c⟩ } := by
  calc illegalCommand c s
    _ = { s with errors := ⟨5, 40, 0, saturate32 c.toNat⟩ } := rfl
    _ = { s with errors := ⟨5, 40, 0, c⟩ } := by rw [saturate32_eq_cut32, cut32_toNat]

/-- The decoder rejects every word that is none of the ten command words (30_encoding.md R53, R56). -/
theorem decode_eq_error {c : Word} (h : ∀ i : Instr, c ≠ commandWord i) : ∃ r, decode c = .error r := by
  cases hdecode : decode c with
  | ok i => exact absurd ((decode_eq_ok_iff_commandWord c i).1 hdecode) (h i)
  | error r => exact ⟨r, rfl⟩

theorem runWord_of_error {c : Word} {r : Reject} (h : decode c = .error r) (s : State) :
    runWord c s = .next (illegalCommand c s) := by
  simp [runWord, h]

/-- Settles O4: the decoder rejects the word, so the step is `illegalCommand` on the state with the move taken. -/
theorem illegalWordOnlySetsErrors : Obligations.IllegalWordOnlySetsErrors := by
  intro s c rest hinbox hillegal
  obtain ⟨r, hreject⟩ := decode_eq_error hillegal
  calc step s
    _ = perform (.writeReg 0 c) { s with inbox := rest } := step_of_move hinbox
    _ = runWord c { s with inbox := rest } := rfl
    _ = .next (illegalCommand c { s with inbox := rest }) := runWord_of_error hreject _
    _ = .next { s with inbox := rest, errors := ⟨5, 40, 0, c⟩ } := by rw [illegalCommand_eq]

end Sys2Proof.Machine

/-! SUPPORT. The decoder against the field checks of 30_encoding.md R51, R53 and R54. -/

namespace Sys2Proof.Machine

theorem zeroField_toNat (c : Word) : (zeroField c).toNat = c.toNat / 256 := by
  rw [zeroField, BitVec.extractLsb'_toNat, Nat.shiftRight_eq_div_pow]
  exact Nat.mod_eq_of_lt (by omega)

theorem unitField_toNat (c : Word) : (unitField c).toNat = c.toNat / 16 % 16 := by
  rw [unitField, BitVec.extractLsb'_toNat, Nat.shiftRight_eq_div_pow]

theorem fnField_toNat (c : Word) : (fnField c).toNat = c.toNat % 16 := by
  rw [fnField, BitVec.extractLsb'_toNat, Nat.shiftRight_zero]

/-- Every function number of a used unit selects a command (30_encoding.md R54, R55). -/
theorem exists_decodeFields_eq_ok {unit fn : Nat} (h : fn < functionsOfUnit unit) :
    ∃ i, decodeFields unit fn = .ok i := by
  unfold functionsOfUnit at h
  split at h
  case h_6 => omega
  all_goals interval_cases fn <;> exact ⟨_, rfl⟩

/-- The field checks, on the decoder's own fields. A function number below a bound makes the unit a used one. -/
theorem legalWord_iff (c : Word) :
    legalWord c = true ↔ zeroField c = 0 ∧ (fnField c).toNat < functionsOfUnit (unitField c).toNat := by
  rw [← BitVec.toNat_inj, zeroField_toNat, unitField_toNat, fnField_toNat]
  simp only [legalWord, zeroFieldOk, unitFieldOk, fnFieldOk, Bool.and_eq_true, beq_iff_eq, decide_eq_true_eq]
  exact ⟨fun ⟨⟨hzero, _⟩, hfn⟩ => ⟨hzero, hfn⟩, fun ⟨hzero, hfn⟩ => ⟨⟨hzero, by omega⟩, hfn⟩⟩

theorem exists_decode_eq_ok {c : Word} (h : legalWord c = true) : ∃ i, decode c = .ok i := by
  obtain ⟨hzero, hfn⟩ := (legalWord_iff c).1 h
  rw [decode, if_pos hzero]
  exact exists_decodeFields_eq_ok hfn

/-- Settles O2: the encoding of a command is legal, and the fields of a legal word select a command. -/
theorem decodeAndEncodeAgree : Obligations.DecodeAndEncodeAgree := by
  refine ⟨decode_eq_ok_iff_encode, fun c => ⟨fun ⟨i, hi⟩ => ?_, exists_decode_eq_ok⟩⟩
  obtain ⟨-, hlegal, -⟩ := encoding_statement i
  rwa [(decode_eq_ok_iff_encode c i).1 hi]

/-- Settles O3: the words are evaluated. -/
theorem specWordsDecode : Obligations.SpecWordsDecode :=
  ⟨rfl, rfl, rfl, rfl, rfl, rfl, rfl, rfl⟩

end Sys2Proof.Machine

/-! SUPPORT. What every step keeps: the capacities of the buffers and the legal pairs of code and check. -/

namespace Sys2Proof.Machine

/-! ## Capacities (10_state.md R21) -/

theorem exec_keeps_wf {i : Instr} {s t : State} (h : Memory.wf s) (ht : exec i s = .next t) : Memory.wf t := by
  obtain ⟨f, -, rfl⟩ | ⟨-, rfl⟩ := exec_cases ht
  · exact raise_keeps_wf h
  · exact finish_keeps_wf (effectOf_keeps_wf h)

theorem runWord_keeps_wf {c : Word} {s t : State} (h : Memory.wf s) (ht : runWord c s = .next t) : Memory.wf t := by
  obtain ⟨i, -, hexec⟩ | ⟨r, -, rfl⟩ := runWord_cases ht
  · exact exec_keeps_wf h hexec
  · exact raise_keeps_wf h

theorem perform_keeps_wf {m : HostMove} {s t : State} (h : Memory.wf s) (ht : perform m s = .next t) :
    Memory.wf t := by
  obtain ⟨c, -, hrun⟩ | ⟨n, v, -, -, rfl⟩ | ⟨r, rfl⟩ | ⟨n, x, -, hwrite⟩ | ⟨w, -, hload⟩ | ⟨-, rfl⟩ :=
    perform_cases ht
  · exact runWord_keeps_wf h hrun
  · exact storeReg_keeps_wf h
  · exact answer_keeps_wf h
  · exact memWrite_keeps_wf h hwrite
  · exact loadW_keeps_wf h hload
  · exact resetOf_wf _ _ _

/-- Settles O54: taking the move leaves the buffers as they are, and every move keeps the capacities. -/
theorem everyStepKeepsCapacities : Obligations.EveryStepKeepsCapacities := by
  intro s t hs ht
  obtain ⟨-, rfl⟩ | ⟨m, rest, -, hperform⟩ := step_cases ht
  · exact hs
  · exact perform_keeps_wf (s := { s with inbox := rest }) hs hperform

/-- Settles O55: every buffer is empty after reset. -/
theorem resetIsWithinCapacities : Obligations.ResetIsWithinCapacities := resetOf_wf _ _ _

/-! ## The error registers (60_exceptions.md R110, R113, R115) -/

/-- A failure whose check stands with the code of its kind. -/
def Failure.legal (f : Failure) : Prop := f.chk ∈ checksOfCode (errorCode f.kind).toNat

/-- Every check of every command is one of its error code's (60_exceptions.md R113). -/
theorem legal_of_mem_checksOf {i : Instr} {s : State} {b : Bool} {f : Failure} (h : (b, f) ∈ checksOf i s) :
    f.legal := by
  have hall : ∀ c ∈ checksOf i s, c.2.legal := by
    cases i <;>
      simp [checksOf, absmaxChecks, scompressChecks, sdecompressChecks, dequantChecks, packChecks, encodeChecks,
        decodeChecks, Failure.legal, errorCode, checksOfCode]
  exact hall _ h

/-- A check id fits 32 bits, so ERRCHK holds it as it is. -/
theorem saturate32_toNat_of_mem_checksOfCode {code chk : Nat} (h : chk ∈ checksOfCode code) :
    (saturate32 chk).toNat = chk := by
  have hle : chk ≤ 40 := by
    unfold checksOfCode at h
    split at h <;> simp at h <;> omega
  rw [saturate32, BitVec.toNat_ofNat, Nat.min_eq_left (by omega)]
  exact Nat.mod_eq_of_lt (by omega)

theorem legalErrors_raise {f : Failure} (hf : f.legal) (s : State) : legalErrors (raise f s).errors := by
  right
  rw [raise_errors, saturate32_toNat_of_mem_checksOfCode hf]
  exact hf

theorem exec_legalErrors {i : Instr} {s t : State} (h : exec i s = .next t) : legalErrors t.errors := by
  obtain ⟨f, hf, rfl⟩ | ⟨-, rfl⟩ := exec_cases h
  · exact legalErrors_raise (legal_of_mem_checksOf (firstFailing_mem hf)) s
  · exact .inl rfl

theorem runWord_legalErrors {c : Word} {s t : State} (h : runWord c s = .next t) : legalErrors t.errors := by
  obtain ⟨i, -, hexec⟩ | ⟨r, -, rfl⟩ := runWord_cases h
  · exact exec_legalErrors hexec
  · exact legalErrors_raise (by simp [Failure.legal, errorCode, checksOfCode]) s

@[simp] theorem storeReg_errors (s : State) (n : Nat) (v : Word) : (storeReg s n v).errors = s.errors := by
  rw [storeReg_cases]

/-- A MemWrite changes nothing but the seven host-writable buffers (20_memory.md R43). -/
theorem memWrite_frame {n : Nat} {x : Payload} {s t : State} (h : memWrite n x s = .next t) :
    t = { s with
      raw := t.raw, shape := t.shape, va := t.va, sq := t.sq, sf := t.sf, cd := t.cd, pk := t.pk } := by
  obtain ⟨sp, -, ⟨-, rfl⟩ | ⟨-, hst, -⟩⟩ := memWrite_cases h
  · rfl
  · obtain ⟨_, _, _, rfl⟩ | ⟨_, _, _, rfl⟩ | ⟨_, _, _, rfl⟩ | ⟨_, _, _, rfl⟩ | ⟨_, _, _, rfl⟩ | ⟨_, _, _, rfl⟩ |
      ⟨_, _, _, rfl⟩ := storeBuffer_cases hst <;> rfl

/-- The error registers change by a write of CMD and by reset, and by no other move (10_state.md R30). -/
theorem perform_errors {m : HostMove} {s t : State} (h : perform m s = .next t) :
    t.errors = s.errors ∨ (∃ c, m = .writeReg 0 c ∧ runWord c s = .next t) ∨ (m = .reset ∧ t = resetEvent s) := by
  obtain hrun | ⟨n, v, -, -, rfl⟩ | ⟨r, rfl⟩ | ⟨n, x, -, hwrite⟩ | ⟨w, -, hload⟩ | hreset := perform_cases h
  · exact .inr (.inl hrun)
  · exact .inl (storeReg_errors s n v)
  · exact .inl rfl
  · rw [memWrite_frame hwrite]
    exact .inl rfl
  · obtain ⟨-, rfl⟩ := loadW_cases hload
    exact .inl rfl
  · exact .inr (.inr hreset)

/-- The error registers of a step, by kind of move (10_state.md R30). -/
theorem step_errors {s t : State} (h : step s = .next t) :
    t.errors = s.errors ∨
    (∃ c rest, s.inbox = .writeReg 0 c :: rest ∧ runWord c { s with inbox := rest } = .next t) ∨
    (∃ rest, s.inbox = .reset :: rest ∧ t = resetEvent { s with inbox := rest }) := by
  obtain ⟨-, rfl⟩ | ⟨m, rest, hinbox, hperform⟩ := step_cases h
  · exact .inl rfl
  · obtain hsame | ⟨c, rfl, hrun⟩ | ⟨rfl, hreset⟩ := perform_errors hperform
    · exact .inl hsame
    · exact .inr (.inl ⟨c, rest, hinbox, hrun⟩)
    · exact .inr (.inr ⟨rest, hinbox, hreset⟩)

/-- No check stands with code 2 (60_exceptions.md R115). -/
theorem err_ne_two_of_legalErrors {e : ErrorRegs} (h : legalErrors e) : e.err ≠ 2 := by
  intro htwo
  obtain rfl | hmem := h
  · exact absurd htwo (by decide)
  · rw [htwo] at hmem
    exact absurd hmem List.not_mem_nil

/-- Settles O56: a command word leaves a legal pair whatever the registers held, reset clears them, and every other
move keeps them. -/
theorem everyStepKeepsErrorsLegal : Obligations.EveryStepKeepsErrorsLegal := by
  intro s t hs ht
  have hlegal : legalErrors t.errors := by
    obtain hsame | ⟨c, rest, -, hrun⟩ | ⟨rest, -, rfl⟩ := step_errors ht
    · rwa [hsame]
    · exact runWord_legalErrors hrun
    · exact .inl rfl
  exact ⟨hlegal, err_ne_two_of_legalErrors hlegal⟩

/-- Settles O57: the registers are clear after reset. -/
theorem resetErrorsAreLegal : Obligations.ResetErrorsAreLegal := .inl rfl

/-- Settles O53, by the kinds of move `step_errors` lists. -/
theorem errorRegistersChangeOnlyByCommands : Obligations.ErrorRegistersChangeOnlyByCommands := by
  intro s t ht
  obtain hsame | ⟨c, rest, hinbox, -⟩ | ⟨rest, hinbox, -⟩ := step_errors ht
  · exact .inl hsame
  · exact .inr (.inl ⟨c, rest, hinbox⟩)
  · exact .inr (.inr ⟨rest, hinbox⟩)

end Sys2Proof.Machine

/-! SUPPORT. What a command reads and writes, and what every step leaves unchanged. -/

namespace Sys2Proof.Machine

/-! ## Commands (10_state.md R25, R26, R29; 60_exceptions.md R111, R112) -/

/-- Settles O46: a raised error has a code that is not 0, and a finished command clears the registers. -/
theorem everyCommandEnds : Obligations.EveryCommandEnds := by
  intro i s
  cases hfirst : firstFailing (checksOf i s) with
  | some f => exact ⟨_, exec_of_fails hfirst, .inr (errorCode_ne_zero f.kind)⟩
  | none => exact ⟨_, exec_of_passes hfirst, .inl rfl⟩

/-- Settles O47: only `raise` leaves a code in ERR, and it writes the error registers alone. -/
theorem failedCommandChangesOnlyErrors : Obligations.FailedCommandChangesOnlyErrors := by
  intro i s t ht herr
  obtain ⟨f, -, rfl⟩ | ⟨-, rfl⟩ := exec_cases ht
  · rfl
  · exact absurd rfl herr

/-- Settles O51: `raise` writes the error registers, and the effect of each command its own items. -/
theorem commandsStayInTheirGroup : Obligations.CommandsStayInTheirGroup := by
  intro i s t ht
  obtain ⟨f, -, rfl⟩ | ⟨-, rfl⟩ := exec_cases ht <;> cases i <;> rfl

/-- Settles O50: RAW and SHAPE are among no command's items. -/
theorem commandsNeverWriteTheInputTensor : Obligations.CommandsNeverWriteTheInputTensor := by
  intro i s t ht
  have hframe := commandsStayInTheirGroup i s t ht
  cases i <;> (rw [writesOnly] at hframe; rw [hframe]; exact ⟨rfl, rfl⟩)

/-- The checks of a command are a function of the items it reads. -/
theorem checksOf_congr {i : Instr} {s t : State} (h : readsAgree i s t) : checksOf i s = checksOf i t := by
  cases i <;> simp only [readsAgree] at h <;>
    simp only [checksOf, absmaxChecks, scompressChecks, sdecompressChecks, dequantChecks, packChecks, encodeChecks, h]

/-- So is what it writes. -/
theorem writesAgree_effectOf {i : Instr} {s t : State} (h : readsAgree i s t) :
    writesAgree i (effectOf i s) (effectOf i t) := by
  cases i <;> simp only [readsAgree] at h <;> simp [writesAgree, effectOf, scompressEffect, h]

theorem writesAgree_finish (i : Instr) (s t : State) : writesAgree i (finish s) (finish t) ↔ writesAgree i s t := by
  cases i <;> rfl

/-- Settles O49: equal operands give the same checks, so the same failure or the same results. -/
theorem resultsDependOnlyOnOperands : Obligations.ResultsDependOnlyOnOperands := by
  intro i s s' t t' hreads ht ht'
  have hchecks := checksOf_congr hreads
  obtain ⟨f, hf, rfl⟩ | ⟨hnone, rfl⟩ := exec_cases ht
  · obtain ⟨f', hf', rfl⟩ | ⟨hnone', -⟩ := exec_cases ht'
    · obtain rfl : f = f' := by rw [hchecks, hf'] at hf; exact (Option.some.inj hf).symm
      exact ⟨rfl, fun herr => absurd herr (errorCode_ne_zero f.kind)⟩
    · rw [hchecks, hnone'] at hf; cases hf
  · obtain ⟨f', hf', -⟩ | ⟨-, rfl⟩ := exec_cases ht'
    · rw [hchecks, hf'] at hnone; cases hnone
    · exact ⟨rfl, fun _ => (writesAgree_finish i _ _).2 (writesAgree_effectOf hreads)⟩

/-- A command writes nothing that it reads (10_state.md R20, R21). -/
theorem readsAgree_of_exec {i : Instr} {s t : State} (h : exec i s = .next t) : readsAgree i s t := by
  have hframe := commandsStayInTheirGroup i s t h
  cases i <;> (rw [writesOnly] at hframe; rw [hframe]; simp only [readsAgree, and_self])

/-- Settles O48: the second run reads what the first one read, so it fails alike or writes the same again. -/
theorem commandsAreIdempotent : Obligations.CommandsAreIdempotent := by
  intro i s t ht
  have hchecks := checksOf_congr (readsAgree_of_exec ht)
  obtain ⟨f, hf, rfl⟩ | ⟨hnone, rfl⟩ := exec_cases ht
  · exact exec_of_fails (hchecks ▸ hf)
  · rw [exec_of_passes (hchecks ▸ hnone)]
    cases i <;> rfl

/-! ## The aggregate (10_state.md R24) -/

/-- A command changes W only where it is ENCODE and ends without error, and then to the aggregate it computes. -/
theorem exec_w {i : Instr} {s t : State} (h : exec i s = .next t) :
    t.w = s.w ∨ (i = .encode ∧ t.errors = ErrorRegs.clear ∧
      t.w = encodeAggregate s.params.rawFmt s.params.codeTable s.raw s.shape s.regB s.regS) := by
  obtain ⟨f, -, rfl⟩ | ⟨-, rfl⟩ := exec_cases h
  · exact .inl rfl
  · cases i
    case encode => exact .inr ⟨rfl, rfl, rfl⟩
    all_goals exact .inl rfl

theorem runWord_w {c : Word} {s t : State} (h : runWord c s = .next t) :
    t.w = s.w ∨ (decode c = .ok .encode ∧ t.errors = ErrorRegs.clear ∧
      t.w = encodeAggregate s.params.rawFmt s.params.codeTable s.raw s.shape s.regB s.regS) := by
  obtain ⟨i, hi, hexec⟩ | ⟨r, -, rfl⟩ := runWord_cases h
  · obtain hsame | ⟨rfl, hencoded⟩ := exec_w hexec
    · exact .inl hsame
    · exact .inr ⟨hi, hencoded⟩
  · exact .inl rfl

/-- Settles O52, by the kinds of move `perform_cases` lists. -/
theorem aggregateChangesOnlyAsAWhole : Obligations.AggregateChangesOnlyAsAWhole := by
  intro s t ht
  obtain ⟨-, rfl⟩ | ⟨m, rest, hinbox, hperform⟩ := step_cases ht
  · exact .inl rfl
  · obtain ⟨c, rfl, hrun⟩ | ⟨n, v, -, -, rfl⟩ | ⟨r, rfl⟩ | ⟨n, x, -, hwrite⟩ | ⟨w, rfl, hload⟩ | ⟨rfl, rfl⟩ :=
      perform_cases hperform
    · obtain hsame | hencoded := runWord_w hrun
      · exact .inl hsame
      · exact .inr (.inr (.inl ⟨c, rest, hinbox, hencoded⟩))
    · rw [storeReg_cases]; exact .inl rfl
    · exact .inl rfl
    · rw [memWrite_frame hwrite]; exact .inl rfl
    · obtain ⟨-, rfl⟩ := loadW_cases hload
      exact .inr (.inl ⟨w, rest, hinbox, rfl⟩)
    · exact .inr (.inr (.inr ⟨rest, hinbox, rfl⟩))

/-! ## RI and the parameters (10_state.md R20, 00_scope.md R10) -/

/-- A command leaves RI, or puts a code there. -/
theorem exec_regRI {i : Instr} {s t : State} (h : exec i s = .next t) :
    t.regRI = s.regRI ∨ ∃ code : U4, t.regRI = code.setWidth 32 := by
  obtain ⟨f, -, rfl⟩ | ⟨-, rfl⟩ := exec_cases h
  · exact .inl rfl
  · cases i
    case qnearest => exact .inr ⟨_, rfl⟩
    case qceil => exact .inr ⟨_, rfl⟩
    all_goals exact .inl rfl

theorem runWord_keeps_regRI_le {c : Word} {s t : State} (hs : s.regRI.toNat ≤ 15) (h : runWord c s = .next t) :
    t.regRI.toNat ≤ 15 := by
  obtain ⟨i, -, hexec⟩ | ⟨r, -, rfl⟩ := runWord_cases h
  · obtain hsame | ⟨code, hcode⟩ := exec_regRI hexec
    · rwa [hsame]
    · rw [hcode, BitVec.toNat_setWidth]
      have := code.isLt
      omega
  · exact hs

theorem perform_keeps_regRI_le {m : HostMove} {s t : State} (hs : s.regRI.toNat ≤ 15)
    (h : perform m s = .next t) : t.regRI.toNat ≤ 15 := by
  obtain ⟨c, -, hrun⟩ | ⟨n, v, -, -, rfl⟩ | ⟨r, rfl⟩ | ⟨n, x, -, hwrite⟩ | ⟨w, -, hload⟩ | ⟨-, rfl⟩ :=
    perform_cases h
  · exact runWord_keeps_regRI_le hs hrun
  · rw [storeReg_cases]; exact hs
  · exact hs
  · rw [memWrite_frame hwrite]; exact hs
  · obtain ⟨-, rfl⟩ := loadW_cases hload
    exact hs
  · exact Nat.zero_le _

/-- Settles O58: RI is 0 after reset, only QNEAREST and QCEIL write it, and a code is at most 15. -/
theorem resultIndexStaysInRange : Obligations.ResultIndexStaysInRange := by
  refine ⟨Nat.zero_le _, fun s t hs ht => ?_⟩
  obtain ⟨-, rfl⟩ | ⟨m, rest, -, hperform⟩ := step_cases ht
  · exact hs
  · exact perform_keeps_regRI_le (s := { s with inbox := rest }) hs hperform

theorem exec_params {i : Instr} {s t : State} (h : exec i s = .next t) : t.params = s.params := by
  obtain ⟨f, -, rfl⟩ | ⟨-, rfl⟩ := exec_cases h
  · rfl
  · cases i <;> rfl

theorem perform_params {m : HostMove} {s t : State} (h : perform m s = .next t) : t.params = s.params := by
  obtain ⟨c, -, hrun⟩ | ⟨n, v, -, -, rfl⟩ | ⟨r, rfl⟩ | ⟨n, x, -, hwrite⟩ | ⟨w, -, hload⟩ | ⟨-, rfl⟩ :=
    perform_cases h
  · obtain ⟨i, -, hexec⟩ | ⟨r, -, rfl⟩ := runWord_cases hrun
    · exact exec_params hexec
    · rfl
  · rw [storeReg_cases]
  · rfl
  · rw [memWrite_frame hwrite]
  · obtain ⟨-, rfl⟩ := loadW_cases hload
    rfl
  · rfl

/-- Settles O59: the constraints hold of `Config.params` and of the default table, and no move writes the
parameters. -/
theorem parametersNeverChange : Obligations.ParametersNeverChange := by
  refine ⟨config_params_wf, defaultCodeTable_wf, fun s t ht => ?_⟩
  obtain ⟨-, rfl⟩ | ⟨m, rest, -, hperform⟩ := step_cases ht
  · rfl
  · exact (perform_params hperform).trans rfl

/-! ## Several copies (20_memory.md R50, 60_exceptions.md R121) -/

/-- A step of copy `k` replaces that copy by its next state. -/
theorem systemStep_eq_some {k : Nat} {sys a : System} :
    systemStep k sys = some a ↔ ∃ s t, sys[k]? = some s ∧ step s = .next t ∧ a = sys.set k t := by
  unfold systemStep
  cases sys[k]? with
  | none => simp
  | some s => cases hstep : step s <;> simp [hstep, eq_comm]

/-- Settles O60: each step reads and replaces its own place of the list. -/
theorem copiesAreIndependent : Obligations.CopiesAreIndependent := by
  intro sys a b j k hjk hj hk
  obtain ⟨s, t, hs, hst, rfl⟩ := systemStep_eq_some.1 hj
  obtain ⟨u, v, hu, huv, rfl⟩ := systemStep_eq_some.1 hk
  have hkeep : (sys.set j t)[k]? = sys[k]? := List.getElem?_set_ne hjk
  refine ⟨hkeep, sys.set k v, systemStep_eq_some.2 ⟨u, v, hkeep ▸ hu, huv, rfl⟩,
    systemStep_eq_some.2 ⟨s, t, ?_, hst, ?_⟩⟩
  · rw [List.getElem?_set_ne hjk.symm, hs]
  · exact List.set_comm t v hjk

end Sys2Proof.Machine

/-! SUPPORT. The host moves, one by one (20_memory.md R43 to R45). -/

namespace Sys2Proof.Machine

theorem runWord_of_ok {c : Word} {i : Instr} (h : decode c = .ok i) (s : State) : runWord c s = exec i s := by
  simp [runWord, h]

/-- A command of the opcode table is a 32-bit word that decodes to it. -/
theorem decode_of_decodeTableWord {nbits w : Nat} {i : Instr} (h : decodeTableWord nbits w = some i) :
    decode (BitVec.ofNat 32 (w % 2 ^ nbits)) = .ok i := by
  unfold decodeTableWord at h
  split at h
  · cases hdecode : decode (BitVec.ofNat 32 (w % 2 ^ nbits)) with
    | ok j => rw [hdecode] at h; exact congrArg _ (Option.some.inj h)
    | error r => rw [hdecode] at h; cases h
  · cases h

/-- A write to CMD of a word that decodes runs the command on the state with the move taken. -/
theorem step_of_command {s : State} {c : Word} {i : Instr} {rest : List HostMove}
    (hinbox : s.inbox = .writeReg 0 c :: rest) (h : decode c = .ok i) : step s = exec i { s with inbox := rest } :=
  (step_of_move hinbox).trans (runWord_of_ok h _)

/-- Settles O5: `withFetchWord` places the move that the first part is about. -/
theorem stepRunsDecodedCommand : Obligations.StepRunsDecodedCommand :=
  ⟨fun _ _ _ _ hinbox h => step_of_command hinbox h, fun s nbits w _ h =>
    step_of_command (withFetchWord_inbox s nbits w) (decode_of_decodeTableWord h)⟩

/-- Settles O6: `takeMove` of an empty inbox. -/
theorem idleStepChangesNothing : Obligations.IdleStepChangesNothing := by
  intro s hinbox
  simp [step, takeMove, hinbox]

/-- Settles O7: the six RW registers are the ones `storeReg_cases` lists. -/
theorem hostWriteRegStoresOnlyWritable : Obligations.HostWriteRegStoresOnlyWritable := by
  intro s n v rest hinbox hn
  refine ⟨storeReg { s with inbox := rest } n v, ?_, storeReg_cases _ n v⟩
  calc step s
    _ = writeReg n v { s with inbox := rest } := step_of_move hinbox
    _ = .next (storeReg { s with inbox := rest } n v) := if_neg hn

/-- The register file as a list, 0 for CMD and from 16 on (10_state.md R20). -/
theorem readReg_eq_getD (s : State) (n : Nat) :
    readReg s n =
      [0, s.errors.err, s.errors.errchk, s.errors.errexp, s.errors.erract, s.regB, s.regS, s.regK, s.regXV, s.regXI,
        s.regRV, s.regRI, s.regSM, s.w.blockSize, s.w.scalerBlockSize, s.w.scalerMean].getD n 0 := by
  match n with
  | 0 | 1 | 2 | 3 | 4 | 5 | 6 | 7 | 8 | 9 | 10 | 11 | 12 | 13 | 14 | 15 => rfl
  | n + 16 => rfl

/-- Settles O8: the reply is `readReg`, which `readReg_eq_getD` tabulates. -/
theorem hostReadRegReturnsByNumber : Obligations.HostReadRegReturnsByNumber := by
  intro s n rest hinbox
  rw [step_of_move hinbox, perform, readReg_eq_getD]
  rfl

/-! ## MemWrite -/

theorem step_of_memWrite {s : State} {n : Nat} {x : Payload} {rest : List HostMove}
    (h : s.inbox = .memWrite n x :: rest) : step s = memWrite n x { s with inbox := rest } := step_of_move h

/-- A MemWrite of elements of another type to a host-writable space is refused. -/
theorem memWrite_of_otherType {n : Nat} {x : Payload} {s : State} {sp : Space} (hsp : spaceOfNumber n = some sp)
    (hw : hostWritable sp = true) (hx : storeBuffer s sp x = none) :
    memWrite n x s = .refused (.elementType n) := by
  simp [memWrite, hsp, hw, hx]

/-- No elements but those of a host-writable space's own type are stored (20_memory.md R43). -/
theorem storeBuffer_eq_none {s : State} {sp : Space} {x : Payload}
    (h : ¬ ((sp = .raw ∧ ∃ xs, x = .f16 xs) ∨ (sp = .shape ∧ ∃ xs, x = .u32 xs) ∨ (sp = .va ∧ ∃ xs, x = .num xs) ∨
      (sp = .sq ∧ ∃ xs, x = .i8 xs) ∨ (sp = .sf ∧ ∃ xs, x = .num xs) ∨ (sp = .cd ∧ ∃ xs, x = .u4 xs) ∨
      (sp = .pk ∧ ∃ xs, x = .u8 xs))) : storeBuffer s sp x = none := by
  refine Option.eq_none_iff_forall_ne_some.2 fun t ht => h ?_
  obtain ⟨xs, rfl, rfl, -⟩ | ⟨xs, rfl, rfl, -⟩ | ⟨xs, rfl, rfl, -⟩ | ⟨xs, rfl, rfl, -⟩ | ⟨xs, rfl, rfl, -⟩ |
    ⟨xs, rfl, rfl, -⟩ | ⟨xs, rfl, rfl, -⟩ := storeBuffer_cases ht <;> simp

theorem spaceOfNumber_eq_none {n : Nat} (h : 14 < n) : spaceOfNumber n = none := by
  obtain ⟨k, rfl⟩ := Nat.exists_eq_add_of_lt h
  rw [show 14 + k + 1 = k + 15 by omega]
  rfl

/-- The numbers of the spaces that are not host-writable (10_state.md R21). -/
theorem readOnly_of_mem {n : Nat} (h : n ∈ [3, 8, 9, 10, 11, 12, 13, 14]) :
    ∃ sp, spaceOfNumber n = some sp ∧ hostWritable sp = false := by
  simp only [List.mem_cons, List.not_mem_nil, or_false] at h
  obtain rfl | rfl | rfl | rfl | rfl | rfl | rfl | rfl := h <;> exact ⟨_, rfl, rfl⟩

/-- Settles O9: a MemWrite within capacity replaces the buffer, and the other eight spaces are not host-writable. -/
theorem memWriteReplacesWholeBuffer : Obligations.MemWriteReplacesWholeBuffer := by
  intro s rest
  refine ⟨fun xs h hc => ?_, fun xs h hc => ?_, fun xs h hc => ?_, fun xs h hc => ?_, fun xs h hc => ?_,
    fun xs h hc => ?_, fun xs h hc => ?_, fun n x hn h => ?_⟩
  case refine_8 =>
    obtain ⟨sp, hsp, hw⟩ := readOnly_of_mem hn
    exact (step_of_move h).trans (memWrite_of_readOnly hsp hw)
  all_goals
    rw [step_of_memWrite h]
    exact memWrite_of_fits rfl rfl rfl hc

/-- Settles O12: the four stops of `memWrite`, `memRead`, `memLen` and `loadW`. -/
theorem undefinedHostMovesStop : Obligations.UndefinedHostMovesStop := by
  refine fun s rest n => ⟨fun hn x i => ⟨fun h => ?_, fun h => ?_, fun h => ?_⟩, fun x h hx => ?exceeds,
    fun x h hx => ?otherType, fun w h hw => ?aggregate⟩
  case exceeds =>
    rw [step_of_memWrite h]
    obtain ⟨rfl, xs, rfl, hc⟩ | ⟨rfl, xs, rfl, hc⟩ | ⟨rfl, xs, rfl, hc⟩ | ⟨rfl, xs, rfl, hc⟩ | ⟨rfl, xs, rfl, hc⟩ |
      ⟨rfl, xs, rfl, hc⟩ | ⟨rfl, xs, rfl, hc⟩ := hx <;> exact memWrite_of_exceeds rfl rfl rfl hc
  case otherType =>
    rw [step_of_memWrite h]
    obtain ⟨rfl, hx⟩ | ⟨rfl, hx⟩ | ⟨rfl, hx⟩ | ⟨rfl, hx⟩ | ⟨rfl, hx⟩ | ⟨rfl, hx⟩ | ⟨rfl, hx⟩ := hx <;>
      exact memWrite_of_otherType rfl rfl (storeBuffer_eq_none (by simp [hx]))
  case aggregate =>
    rw [step_of_move h]
    refine loadW_of_exceeds fun hfits => ?_
    have := (aggregateFits_iff s.params w).1 hfits
    omega
  all_goals
    rw [step_of_move h]
    simp [perform, memWrite, memRead, memLen, spaceOfNumber_eq_none hn]

/-! ## MemRead and MemLen -/

/-- An element by its index, 0 at or beyond the length (20_memory.md R44). -/
theorem getD_eq_dite {α : Type} (xs : List α) (i : Nat) (d : α) :
    xs.getD i d = if h : i < xs.length then xs[i] else d := by
  split_ifs with h
  · exact List.getD_eq_getElem xs d h
  · exact List.getD_eq_default xs d (Nat.not_lt.1 h)

/-- Settles O10: each number names the space that holds the contents, whose reads are `payloadRead` and
`payloadLength`. -/
theorem memReadReturnsElementOrZero : Obligations.MemReadReturnsElementOrZero := by
  intro s rest n x hx
  obtain ⟨sp, hsp, hbuf⟩ : ∃ sp, spaceOfNumber n = some sp ∧ bufferOf { s with inbox := rest } sp = x := by
    simp only [List.mem_cons, Prod.mk.injEq, List.not_mem_nil, or_false] at hx
    obtain ⟨rfl, rfl⟩ | ⟨rfl, rfl⟩ | ⟨rfl, rfl⟩ | ⟨rfl, rfl⟩ | ⟨rfl, rfl⟩ | ⟨rfl, rfl⟩ | ⟨rfl, rfl⟩ | ⟨rfl, rfl⟩ |
      ⟨rfl, rfl⟩ | ⟨rfl, rfl⟩ | ⟨rfl, rfl⟩ | ⟨rfl, rfl⟩ | ⟨rfl, rfl⟩ | ⟨rfl, rfl⟩ | ⟨rfl, rfl⟩ := hx <;>
      exact ⟨_, rfl, rfl⟩
  refine ⟨fun i h => ?_, fun h => ?_⟩
  · rw [step_of_move h]
    simp only [perform, memRead, hsp, hbuf, answer]
    cases x <;> simp only [payloadRead, getD_eq_dite]
  · rw [step_of_move h]
    simp only [perform, memLen, hsp, hbuf, answer]

/-- Settles O14: the reset event writes everything but the three fields that stay. -/
theorem resetEventRestoresReset : Obligations.ResetEventRestoresReset := by
  intro s rest hinbox
  rw [step_of_move hinbox]
  rfl

end Sys2Proof.Machine

/-! SUPPORT. The arithmetic of 00_scope.md R15 on finite operands, in terms of `real`. -/

namespace Sys2Proof.Machine

/-! ## Signs and zeros -/

theorem signOf_eq_getLsbD (a : Num32) : signOf a = a.getLsbD 31 := rfl

theorem real_eq_signed (a : Num32) : real a = (signed (signOf a) (magOf a) : ℚ) / 2 ^ 149 := rfl

theorem units_eq_zero_iff (a : Num32) : units a = 0 ↔ magOf a = 0 := by
  rw [units_eq]
  cases signOf a <;> simp

theorem real_eq_zero_iff (a : Num32) : real a = 0 ↔ units a = 0 := by
  rw [real, div_eq_zero_iff]
  simp

theorem isZero_eq_false_iff {a : Num32} (ha : isFinite a = true) : isZero a = false ↔ real a ≠ 0 := by
  rw [ne_eq, ← isZero_iff_real ha, Bool.not_eq_true]

@[simp] theorem roundHalfEven_zero (d : Nat) : roundHalfEven 0 d = 0 := by simp [roundHalfEven]

@[simp] theorem roundBits_zero (fmt : Format) (d : Nat) : roundBits fmt 0 d = 0 := by simp [roundBits]

/-- An exact zero is rounded to the zero of the sign given. -/
theorem roundNum_zero (neg : Bool) (d : Nat) : roundNum neg 0 d = if neg then 0x80000000#32 else 0x00000000#32 := by
  rw [roundNum, roundBits_zero]
  cases neg <;> rfl

theorem and_signBit (x : Num32) : x &&& 0x80000000#32 = if x.getLsbD 31 then 0x80000000#32 else 0x00000000#32 :=
  BitVec.and_twoPow x 31

/-- The zero whose sign is the exclusive-or of the operand signs (00_scope.md R15). -/
theorem roundNum_xor_zero (a b : Num32) (d : Nat) :
    roundNum (signOf a ^^ signOf b) 0 d = (a ^^^ b) &&& 0x80000000#32 := by
  rw [roundNum_zero, and_signBit, BitVec.getLsbD_xor, signOf_eq_getLsbD, signOf_eq_getLsbD]

theorem signed_xor_mul (s t : Bool) (m n : Nat) : signed (s ^^ t) (m * n) = signed s m * signed t n := by
  cases s <;> cases t <;> simp

theorem signed_xor_div (s t : Bool) (m n : Nat) :
    (signed s m : ℚ) / signed t n = (signed (s ^^ t) m : ℚ) / n := by
  cases s <;> cases t <;> simp [neg_div, div_neg]

theorem cast_signed_mul_two_pow (neg : Bool) (m k : Nat) :
    (signed neg (m * 2 ^ k) : ℚ) = signed neg m * 2 ^ k := by
  rw [← signed_mul]
  push_cast
  rfl

/-! ## fadd and fsub -/

theorem fadd_roundsTo {a b : Num32} (ha : isFinite a = true) (hb : isFinite b = true) :
    roundsTo (real a + real b) (fadd a b) := by
  have hsum : real a + real b = ((units a + units b : Int) : ℚ) / 2 ^ 149 := by
    rw [real, real, ← add_div, Int.cast_add]
  rw [hsum, fadd_of_finite ha hb]
  exact roundSum_roundsTo _ _

theorem fsub_roundsTo {a b : Num32} (ha : isFinite a = true) (hb : isFinite b = true) :
    roundsTo (real a - real b) (fsub a b) := by
  have hdiff : real a - real b = ((units a - units b : Int) : ℚ) / 2 ^ 149 := by
    rw [real, real, ← sub_div, Int.cast_sub]
  rw [hdiff, fsub_of_finite ha hb]
  exact roundSum_roundsTo _ _

theorem roundSum_zero (zeroNeg : Bool) : roundSum zeroNeg 0 = if zeroNeg then 0x80000000#32 else 0x00000000#32 :=
  roundNum_zero zeroNeg 1

/-- The sign of a value that is not zero is its sign bit. -/
theorem signOf_eq_decide {a : Num32} (h : units a ≠ 0) : signOf a = decide (units a < 0) := by
  rw [units_eq] at h ⊢
  cases hs : signOf a <;> rw [hs] at h
  · rw [signed_false]
    exact (decide_eq_false (by omega)).symm
  · rw [signed_true] at h ⊢
    exact (decide_eq_true (by omega)).symm

/-- Settles O15: `roundSum` rounds the exact sum, and values that cancel have opposite signs. -/
theorem additionRoundsToNearestEven : Obligations.AdditionRoundsToNearestEven := by
  refine fun a b ha hb => ⟨fadd_roundsTo ha hb, fun hne hcancel => ?_⟩
  rw [ne_eq, real_eq_zero_iff] at hne
  have hunits : units a + units b = 0 := by
    rw [real, real, ← add_div, div_eq_zero_iff] at hcancel
    exact_mod_cast hcancel.resolve_right (by positivity)
  have hsigns : (signOf a && signOf b) = false := by
    rw [signOf_eq_decide hne, signOf_eq_decide (a := b) (by omega), ← Bool.decide_and]
    exact decide_eq_false (by omega)
  rw [fadd_of_finite ha hb, hunits, hsigns]
  exact roundSum_zero false

/-- Settles O16: `roundSum` rounds the exact difference, and equal values have equal signs. -/
theorem subtractionRoundsToNearestEven : Obligations.SubtractionRoundsToNearestEven := by
  refine fun a b ha hb => ⟨fsub_roundsTo ha hb, fun hne hcancel => ?_⟩
  rw [ne_eq, real_eq_zero_iff] at hne
  have hunits : units a - units b = 0 := by
    rw [real, real, ← sub_div, div_eq_zero_iff] at hcancel
    exact_mod_cast hcancel.resolve_right (by positivity)
  have hsigns : (signOf a && !signOf b) = false := by
    rw [signOf_eq_decide hne, signOf_eq_decide (a := b) (by omega), ← decide_not, ← Bool.decide_and]
    exact decide_eq_false (by omega)
  rw [fsub_of_finite ha hb, hunits, hsigns]
  exact roundSum_zero false

/-! ## fmul and fdiv -/

theorem fmul_roundsTo {a b : Num32} (ha : isFinite a = true) (hb : isFinite b = true) :
    roundsTo (real a * real b) (fmul a b) := by
  have hprod : real a * real b =
      (signed (signOf a ^^ signOf b) (magOf a * magOf b) : ℚ) / (2 ^ 149 : Nat) / 2 ^ 149 := by
    rw [real_eq_signed, real_eq_signed, div_mul_div_comm, signed_xor_mul, div_div]
    push_cast
    rfl
  rw [hprod, fmul_of_finite ha hb]
  exact roundNum_roundsTo _ _ _ (by positivity)

/-- Settles O17: `roundNum` rounds the exact product, and a zero product is the zero of that sign. -/
theorem multiplicationRoundsToNearestEven : Obligations.MultiplicationRoundsToNearestEven := by
  refine fun a b ha hb => ⟨fmul_roundsTo ha hb, fun hzero => ?_⟩
  have hmag : magOf a * magOf b = 0 := by
    rwa [mul_eq_zero, real_eq_zero_iff, real_eq_zero_iff, units_eq_zero_iff, units_eq_zero_iff, ← mul_eq_zero] at hzero
  rw [fmul_of_finite ha hb, hmag]
  exact roundNum_xor_zero a b _

theorem magOf_pos {a : Num32} (h : real a ≠ 0) : 0 < magOf a := by
  rw [ne_eq, real_eq_zero_iff, units_eq_zero_iff] at h
  exact Nat.pos_of_ne_zero h

theorem fdiv_roundsTo {a b : Num32} (ha : isFinite a = true) (hb : isFinite b = true) (hne : real b ≠ 0) :
    roundsTo (real a / real b) (fdiv a b) := by
  have hpos := magOf_pos hne
  have hquot : real a / real b =
      (signed (signOf a ^^ signOf b) (magOf a * 2 ^ 149) : ℚ) / magOf b / 2 ^ 149 := by
    rw [real_eq_signed, real_eq_signed, div_div_div_cancel_right₀ (by positivity), signed_xor_div,
      cast_signed_mul_two_pow, div_right_comm, mul_div_cancel_right₀ _ (by positivity)]
  rw [hquot, fdiv_of_finite ha hb ((isZero_eq_false_iff hb).2 hne)]
  exact roundNum_roundsTo _ _ _ hpos

/-- Settles O18: `roundNum` rounds the exact quotient, and a zero dividend gives the zero of that sign. -/
theorem divisionRoundsToNearestEven : Obligations.DivisionRoundsToNearestEven := by
  refine fun a b ha hb hne => ⟨fdiv_roundsTo ha hb hne, fun hzero => ?_⟩
  rw [real_eq_zero_iff, units_eq_zero_iff] at hzero
  rw [fdiv_of_finite ha hb ((isZero_eq_false_iff hb).2 hne), hzero, Nat.zero_mul]
  exact roundNum_xor_zero a b _

/-! ## i2f -/

/-- `i2f` is `nearestNum` with denominator 1. -/
theorem i2f_roundsTo (n : Int) : roundsTo (n : ℚ) (i2f n) := by
  have h := nearestNum_roundsTo n Nat.one_pos
  rwa [Nat.cast_one, div_one] at h

/-- An integer of at most 24 bits, or `2^24` itself, is the value of a finite pattern. -/
theorem exists_real_eq_int {n : Int} (hn : |n| ≤ 2 ^ 24) : ∃ c : Num32, isFinite c = true ∧ real c = n := by
  obtain ⟨sig, s, hsig, hs, hmag⟩ : ∃ sig s, sig < 2 ^ 24 ∧ s ≤ 253 ∧ sig * 2 ^ s = n.natAbs * 2 ^ 149 := by
    have habs : n.natAbs ≤ 2 ^ 24 := by
      have : ((n.natAbs : Nat) : Int) ≤ 2 ^ 24 := by rwa [Int.natCast_natAbs]
      exact_mod_cast this
    obtain hlt | heq := habs.lt_or_eq
    · exact ⟨n.natAbs, 149, hlt, by decide, rfl⟩
    · exact ⟨2 ^ 23, 150, by decide, by decide, by rw [heq]; norm_num⟩
  obtain ⟨c, hc, hu⟩ := exists_units_eq (decide (n < 0)) sig s hsig hs
  refine ⟨c, hc, ?_⟩
  rw [real, hu, hmag, ← signed_mul, signed_natAbs]
  push_cast
  exact mul_div_cancel_right₀ _ (by positivity)

/-- i2f is exact up to `2^24` in magnitude (00_scope.md R34(d)). -/
theorem i2f_exact {n : Int} (hn : |n| ≤ 2 ^ 24) : isFinite (i2f n) = true ∧ real (i2f n) = n := by
  obtain ⟨c, hc, hreal⟩ := exists_real_eq_int hn
  exact roundsTo_exact (i2f_roundsTo n) hc hreal

theorem i2f_zero : i2f 0 = 0x00000000#32 := roundNum_zero false 1

/-- Settles O19: `nearestNum` rounds the integer, and exactly where a finite pattern has its value. -/
theorem integerToNumRoundsToNearestEven : Obligations.IntegerToNumRoundsToNearestEven := by
  refine fun n => ⟨i2f_roundsTo n, fun hn => (i2f_exact hn).2, ?_⟩
  rintro rfl
  exact i2f_zero

end Sys2Proof.Machine

/-! SUPPORT. The two 16-bit formats: `widen` and `narrow` in terms of `real` (00_scope.md R14). -/

namespace Sys2Proof.Machine

/-! ## The formats -/

theorem formatOf_fracBits_pos (fmt : RawFmt) : 1 ≤ (formatOf fmt).fracBits := by cases fmt <;> decide

theorem formatOf_expBits_ge (fmt : RawFmt) : 3 ≤ (formatOf fmt).expBits := by cases fmt <;> decide

/-- Both formats have the sign at bit 15 (00_scope.md R14). -/
theorem signPos_formatOf (fmt : RawFmt) : signPos (formatOf fmt) = 15 := by cases fmt <;> rfl

theorem infinity16_eq (fmt : RawFmt) : infinity16 fmt = BitVec.ofNat 16 (infinityBits (formatOf fmt)) := by
  cases fmt <;> rfl

theorem infinity16_neg_eq (fmt : RawFmt) :
    infinity16 fmt ||| 0x8000#16 = BitVec.ofNat 16 (withSign (formatOf fmt) true (infinityBits (formatOf fmt))) := by
  cases fmt <;> rfl

theorem overflow16_eq (fmt : RawFmt) :
    overflow16 fmt = (overflowUnits (formatOf fmt) : ℚ) / 2 ^ unitExp (formatOf fmt) := by
  cases fmt <;> norm_num [overflow16, overflowUnits, formatOf, unitExp]

/-- A pattern is its sign and the bits below it. -/
theorem eq_of_sign_of_bits {fmt : Format} {a b : Nat} (ha : a < 2 ^ (signPos fmt + 1)) (hb : b < 2 ^ (signPos fmt + 1))
    (hsign : isNegative fmt a = isNegative fmt b) (hbits : magnitudeBits fmt a = magnitudeBits fmt b) : a = b := by
  have hdiv : ∀ x, x < 2 ^ (signPos fmt + 1) → x / 2 ^ signPos fmt < 2 := fun x hx =>
    Nat.div_lt_of_lt_mul (by rwa [← Nat.pow_succ])
  have hda := hdiv a ha
  have hdb := hdiv b hb
  rw [isNegative, isNegative, Nat.testBit_eq_decide_div_mod_eq, Nat.testBit_eq_decide_div_mod_eq, decide_eq_decide,
    Nat.mod_eq_of_lt hda, Nat.mod_eq_of_lt hdb] at hsign
  have hquot : a / 2 ^ signPos fmt = b / 2 ^ signPos fmt := by
    generalize a / 2 ^ signPos fmt = p at *
    generalize b / 2 ^ signPos fmt = q at *
    omega
  rw [← Nat.div_add_mod a (2 ^ signPos fmt), ← Nat.div_add_mod b (2 ^ signPos fmt), hquot]
  exact congrArg _ hbits

/-- Patterns of equal sign and equal magnitude are equal. -/
theorem eq_of_sign_of_magnitude {fmt : Format} {a b : Nat} (ha : a < 2 ^ (signPos fmt + 1))
    (hb : b < 2 ^ (signPos fmt + 1)) (hsign : isNegative fmt a = isNegative fmt b)
    (hmag : magnitude fmt a = magnitude fmt b) : a = b :=
  eq_of_sign_of_bits ha hb hsign ((bitsValue_strictMono fmt).injective hmag)

theorem num_eq_of_sign_of_mag {a b : Num32} (hsign : signOf a = signOf b) (hmag : magOf a = magOf b) : a = b :=
  BitVec.eq_of_toNat_eq (eq_of_sign_of_magnitude (fmt := binary32) a.isLt b.isLt hsign hmag)

/-- A value other than zero has one pattern. -/
theorem num_eq_of_real_eq {a b : Num32} (h : real a = real b) (hne : real a ≠ 0) : a = b := by
  have hunits : units a = units b := le_antisymm ((real_le_iff a b).1 h.le) ((real_le_iff b a).1 h.ge)
  have hune : units a ≠ 0 := fun h0 => hne ((real_eq_zero_iff a).2 h0)
  have hsign : signOf a = signOf b := by
    rw [signOf_eq_decide hune, signOf_eq_decide (hunits ▸ hune), hunits]
  refine num_eq_of_sign_of_mag hsign ?_
  rw [units_eq, units_eq, hsign] at hunits
  cases hs : signOf b <;> simpa [hs] using hunits

/-! ## widen -/

theorem real16_eq_signed (fmt : RawFmt) (h : F16) :
    real16 fmt h = (signed (sign16 fmt h) (magnitude (formatOf fmt) h.toNat) : ℚ) / 2 ^ unitExp (formatOf fmt) := rfl

/-- The value of a finite `F16`, in multiples of `2^-149`, has a significand of at most 24 bits. -/
theorem exists_significand16 {fmt : RawFmt} {h : F16} (hfin : isFinite16 fmt h = true) :
    ∃ sig s, sig < 2 ^ 24 ∧ s ≤ 253 ∧
      sig * 2 ^ s * 2 ^ unitExp (formatOf fmt) = magnitude (formatOf fmt) h.toNat * 2 ^ 149 := by
  rw [isFinite16, isFinitePattern, decide_eq_true_eq] at hfin
  rw [magnitude_eq_bitsValue]
  obtain ⟨s, sig, hm, hlow, hhigh⟩ := bits_split (formatOf fmt) (magnitudeBits (formatOf fmt) h.toNat)
  rw [hm] at hfin ⊢
  rw [bitsValue_of_significand _ _ _ hlow hhigh.le]
  cases fmt with
  | binary16 =>
    norm_num [formatOf, infinityBits] at hfin hhigh
    refine ⟨sig, s + 125, by omega, by omega, ?_⟩
    norm_num [formatOf, unitExp, pow_add]
    ring
  | bfloat16 =>
    norm_num [formatOf, infinityBits] at hfin hlow hhigh
    refine ⟨sig * 2 ^ 16, s, by omega, by omega, ?_⟩
    norm_num [formatOf, unitExp]
    ring

/-- A finite `F16` value is the value of a finite `Num`. -/
theorem exists_real_eq_real16 {fmt : RawFmt} {h : F16} (hfin : isFinite16 fmt h = true) :
    ∃ c : Num32, isFinite c = true ∧ real c = real16 fmt h := by
  obtain ⟨sig, s, hsig, hs, hmag⟩ := exists_significand16 hfin
  obtain ⟨c, hc, hu⟩ := exists_units_eq (sign16 fmt h) sig s hsig hs
  refine ⟨c, hc, ?_⟩
  rw [real, hu, real16_eq_signed, div_eq_div_iff (by positivity) (by positivity)]
  rw [← cast_signed_mul_two_pow, ← cast_signed_mul_two_pow, hmag]

theorem widen_of_finite {fmt : RawFmt} {h : F16} (hfin : isFinite16 fmt h = true) :
    widen fmt h = roundNum (sign16 fmt h) (magnitude (formatOf fmt) h.toNat * 2 ^ 149) (2 ^ unitExp (formatOf fmt)) :=
  if_pos hfin

theorem widen_roundsTo {fmt : RawFmt} {h : F16} (hfin : isFinite16 fmt h = true) :
    roundsTo (real16 fmt h) (widen fmt h) := by
  have hreal : real16 fmt h = (signed (sign16 fmt h) (magnitude (formatOf fmt) h.toNat * 2 ^ 149) : ℚ) /
      (2 ^ unitExp (formatOf fmt) : Nat) / 2 ^ 149 := by
    rw [real16_eq_signed, div_right_comm, cast_signed_mul_two_pow, mul_div_cancel_right₀ _ (by positivity),
      Nat.cast_pow, Nat.cast_ofNat]
  rw [hreal, widen_of_finite hfin]
  exact roundNum_roundsTo _ _ _ (by positivity)

theorem widen_exact {fmt : RawFmt} {h : F16} (hfin : isFinite16 fmt h = true) :
    isFinite (widen fmt h) = true ∧ real (widen fmt h) = real16 fmt h := by
  obtain ⟨c, hc, hreal⟩ := exists_real_eq_real16 hfin
  exact roundsTo_exact (widen_roundsTo hfin) hc hreal

theorem signOf_widen {fmt : RawFmt} {h : F16} (hfin : isFinite16 fmt h = true) :
    signOf (widen fmt h) = sign16 fmt h := by
  rw [widen_of_finite hfin, signOf_roundNum]

theorem sign16_eq_getLsbD (fmt : RawFmt) (h : F16) : sign16 fmt h = h.getLsbD 15 := by
  rw [sign16, isNegative, signPos_formatOf]
  rfl

/-- Settles O20: every finite `F16` value is a `Num` value, so its rounding is exact. -/
theorem widenIsExact : Obligations.WidenIsExact := by
  intro fmt h hfin
  obtain ⟨hfinite, hreal⟩ := widen_exact hfin
  refine ⟨hfinite, hreal, ?_⟩
  rw [← signOf_eq_getLsbD, ← sign16_eq_getLsbD fmt, signOf_widen hfin]

/-! ## narrow -/

/-- The `F16` nearest to `n / d` smallest subnormals of its format, with the sign given. -/
def round16 (fmt : RawFmt) (neg : Bool) (n d : Nat) : F16 :=
  BitVec.ofNat 16 (withSign (formatOf fmt) neg (roundBits (formatOf fmt) n d))

theorem narrow_of_finite {fmt : RawFmt} {v : Num32} (hv : isFinite v = true) :
    narrow fmt v = round16 fmt (signOf v) (magOf v * 2 ^ unitExp (formatOf fmt)) (2 ^ 149) := if_pos hv

theorem round16_toNat (fmt : RawFmt) (neg : Bool) (n d : Nat) :
    (round16 fmt neg n d).toNat = withSign (formatOf fmt) neg (roundBits (formatOf fmt) n d) := by
  have hlt := withSign_lt (formatOf fmt) neg _ (roundBits_lt (formatOf fmt) n d)
  rw [signPos_formatOf] at hlt
  rw [round16, BitVec.toNat_ofNat]
  exact Nat.mod_eq_of_lt hlt

theorem sign16_round16 (fmt : RawFmt) (neg : Bool) (n d : Nat) : sign16 fmt (round16 fmt neg n d) = neg := by
  rw [sign16, round16_toNat]
  exact isNegative_withSign _ _ _ (roundBits_lt _ n d)

theorem isFinite16_round16 (fmt : RawFmt) (neg : Bool) (n d : Nat) :
    isFinite16 fmt (round16 fmt neg n d) = decide (roundBits (formatOf fmt) n d < infinityBits (formatOf fmt)) := by
  rw [isFinite16, isFinitePattern, round16_toNat, magnitudeBits_withSign _ _ _ (roundBits_lt _ n d)]

theorem real16_round16 (fmt : RawFmt) (neg : Bool) (n d : Nat) :
    real16 fmt (round16 fmt neg n d) =
      (signed neg (bitsValue (formatOf fmt) (roundBits (formatOf fmt) n d)) : ℚ) / 2 ^ unitExp (formatOf fmt) := by
  rw [real16_eq_signed, sign16_round16, magnitude_eq_bitsValue, round16_toNat,
    magnitudeBits_withSign _ _ _ (roundBits_lt _ n d)]

/-- The lowest bit of a rounded pattern is that of its fraction field. -/
theorem getLsbD_zero_round16 {fmt : RawFmt} (neg : Bool) {n d : Nat} (h : roundBits (formatOf fmt) n d % 2 = 0) :
    (round16 fmt neg n d).getLsbD 0 = false := by
  rw [BitVec.getLsbD, round16_toNat, Nat.testBit_zero, withSign, signPos_formatOf]
  cases neg <;> simp [Nat.add_mod, h]

theorem abs_signed_div (neg : Bool) (n d u : Nat) : |(signed neg n : ℚ) / d / 2 ^ u| = (n : ℚ) / d / 2 ^ u := by
  rw [abs_div, abs_div, Nat.abs_cast, abs_of_pos (by positivity : (0 : ℚ) < 2 ^ u)]
  cases neg <;> simp

theorem signed_div_neg_iff {neg : Bool} {n d : Nat} (u : Nat) (hn : 0 < n) (hd : 0 < d) :
    (signed neg n : ℚ) / d / 2 ^ u < 0 ↔ neg = true := by
  have hpos : (0 : ℚ) < (n : ℚ) / d / 2 ^ u := by positivity
  cases neg
  · simpa using hpos.le
  · simpa [neg_div] using hpos

/-- A result rounds beyond the largest finite value exactly from the threshold of the statements on. -/
theorem abs_lt_overflow16_iff (fmt : RawFmt) (neg : Bool) (n : Nat) {d : Nat} (hd : 0 < d) :
    |(signed neg n : ℚ) / d / 2 ^ unitExp (formatOf fmt)| < overflow16 fmt ↔
      roundRaw (formatOf fmt) n d < infinityBits (formatOf fmt) := by
  have hover := roundRaw_overflows (formatOf fmt) (formatOf_fracBits_pos fmt) (formatOf_expBits_ge fmt) n d hd
  rw [← not_le (a := infinityBits (formatOf fmt)), hover, not_le, abs_signed_div, overflow16_eq,
    div_lt_div_iff_of_pos_right (by positivity), div_lt_iff₀ (by exact_mod_cast hd)]
  exact_mod_cast Iff.rfl

/-- Below the threshold, no `F16` value is nearer than the rounded one, and on a tie its fraction field is even. -/
theorem round16_nearest {fmt : RawFmt} (neg : Bool) {n d : Nat} (hd : 0 < d)
    (hR : roundRaw (formatOf fmt) n d < infinityBits (formatOf fmt)) (c : F16)
    (hne : real16 fmt c ≠ real16 fmt (round16 fmt neg n d)) :
    |real16 fmt (round16 fmt neg n d) - (signed neg n : ℚ) / d / 2 ^ unitExp (formatOf fmt)| <
      |real16 fmt c - (signed neg n : ℚ) / d / 2 ^ unitExp (formatOf fmt)| ∨
    (|real16 fmt (round16 fmt neg n d) - (signed neg n : ℚ) / d / 2 ^ unitExp (formatOf fmt)| =
      |real16 fmt c - (signed neg n : ℚ) / d / 2 ^ unitExp (formatOf fmt)| ∧
      (round16 fmt neg n d).getLsbD 0 = false) := by
  have hbits : roundBits (formatOf fmt) n d = roundRaw (formatOf fmt) n d := by
    rw [roundBits_eq, Nat.min_eq_left hR.le]
  have heven := getLsbD_zero_round16 (fmt := fmt) neg (n := n) (d := d)
  rw [real16_round16, hbits, real16_eq_signed fmt c, magnitude_eq_bitsValue] at hne ⊢
  rw [hbits] at heven
  have hne' := fun h => hne (congrArg (fun z : Int => (z : ℚ) / 2 ^ unitExp (formatOf fmt)) h)
  rw [real_distance _ _ d _ hd, real_distance _ _ d _ hd, div_lt_div_iff_of_pos_right (by positivity),
    div_left_inj' (by positivity), Int.cast_lt, Int.cast_inj]
  exact (roundRaw_nearest_signed _ (formatOf_fracBits_pos fmt) n d _ hd neg _ hne').imp_right
    fun ⟨htie, hpar⟩ => ⟨htie, heven hpar⟩

/-- `round16` is correct rounding of `± n / d` smallest subnormals (00_scope.md R14). -/
theorem round16_roundsTo16 (fmt : RawFmt) (neg : Bool) (n : Nat) {d : Nat} (hd : 0 < d) :
    roundsTo16 fmt ((signed neg n : ℚ) / d / 2 ^ unitExp (formatOf fmt)) (round16 fmt neg n d) := by
  have hiff := abs_lt_overflow16_iff fmt neg n hd
  rw [roundsTo16]
  by_cases hR : roundRaw (formatOf fmt) n d < infinityBits (formatOf fmt)
  · rw [if_pos (hiff.2 hR), isFinite16_round16, roundBits_eq, Nat.min_eq_left hR.le]
    exact ⟨decide_eq_true hR, fun c _ hne => round16_nearest neg hd hR c hne⟩
  · have hn : 0 < n := by
      by_contra h0
      obtain rfl : n = 0 := by omega
      exact hR (hiff.1 (by cases neg <;> cases fmt <;> norm_num [overflow16]))
    rw [if_neg (hiff.not.2 hR), round16, roundBits_eq, Nat.min_eq_right (Nat.not_lt.1 hR)]
    simp only [signed_div_neg_iff _ hn hd]
    cases neg
    · rw [if_neg Bool.false_ne_true, infinity16_eq, withSign, if_neg Bool.false_ne_true, Nat.zero_add]
    · rw [if_pos rfl, infinity16_neg_eq]

theorem narrow_roundsTo16 (fmt : RawFmt) {v : Num32} (hv : isFinite v = true) :
    roundsTo16 fmt (real v) (narrow fmt v) := by
  have hreal : real v = (signed (signOf v) (magOf v * 2 ^ unitExp (formatOf fmt)) : ℚ) /
      (2 ^ 149 : Nat) / 2 ^ unitExp (formatOf fmt) := by
    rw [real_eq_signed, div_right_comm, cast_signed_mul_two_pow, mul_div_cancel_right₀ _ (by positivity),
      Nat.cast_pow, Nat.cast_ofNat]
  rw [hreal, narrow_of_finite hv]
  exact round16_roundsTo16 fmt _ _ (by positivity)

theorem sign16_narrow (fmt : RawFmt) {v : Num32} (hv : isFinite v = true) :
    sign16 fmt (narrow fmt v) = signOf v := by
  rw [narrow_of_finite hv, sign16_round16]

/-- Settles O21: `narrow` rounds the magnitude and keeps the sign. -/
theorem narrowRoundsToNearestEven : Obligations.NarrowRoundsToNearestEven := by
  refine fun fmt v hv => ⟨narrow_roundsTo16 fmt hv, ?_⟩
  rw [← sign16_eq_getLsbD fmt, sign16_narrow fmt hv, signOf_eq_getLsbD]

/-! ## narrow after widen -/

/-- A finite `F16` value lies below the threshold of overflow. -/
theorem abs_real16_lt_overflow16 {fmt : RawFmt} {c : F16} (hc : isFinite16 fmt c = true) :
    |real16 fmt c| < overflow16 fmt := by
  rw [isFinite16, isFinitePattern, decide_eq_true_eq] at hc
  have hmag : magnitude (formatOf fmt) c.toNat < overflowUnits (formatOf fmt) := by
    have hle := (bitsValue_strictMono (formatOf fmt)).monotone (Nat.le_sub_one_of_lt hc)
    refine lt_of_le_of_lt hle ?_
    cases fmt <;> decide +kernel
  have habs := abs_signed_div (sign16 fmt c) (magnitude (formatOf fmt) c.toNat) 1 (unitExp (formatOf fmt))
  rw [Nat.cast_one, div_one, div_one] at habs
  rw [real16_eq_signed, habs, overflow16_eq, div_lt_div_iff_of_pos_right (by positivity)]
  exact_mod_cast hmag

/-- Rounding a value that a finite `F16` has is exact. -/
theorem roundsTo16_exact {fmt : RawFmt} {r c : F16} (h : roundsTo16 fmt (real16 fmt c) r)
    (hc : isFinite16 fmt c = true) : real16 fmt r = real16 fmt c := by
  rw [roundsTo16, if_pos (abs_real16_lt_overflow16 hc)] at h
  by_contra hne
  obtain ⟨-, hnearest⟩ := h
  obtain hlt | ⟨heq, -⟩ := hnearest c hc (Ne.symm hne)
  · rw [sub_self, abs_zero] at hlt
    exact absurd hlt (not_lt.2 (abs_nonneg _))
  · rw [sub_self, abs_zero] at heq
    exact hne (sub_eq_zero.1 (abs_eq_zero.1 heq))

/-- A value and its sign have one pattern. -/
theorem f16_eq_of_sign_of_real {fmt : RawFmt} {a b : F16} (hsign : sign16 fmt a = sign16 fmt b)
    (hreal : real16 fmt a = real16 fmt b) : a = b := by
  refine BitVec.eq_of_toNat_eq (eq_of_sign_of_magnitude (fmt := formatOf fmt) ?_ ?_ hsign ?_)
  · rw [signPos_formatOf]; exact a.isLt
  · rw [signPos_formatOf]; exact b.isLt
  · rw [real16_eq_signed, real16_eq_signed, hsign, div_left_inj' (by positivity), Int.cast_inj] at hreal
    cases hs : sign16 fmt b <;> simpa [hs] using hreal

/-- Settles O22: `widen` is exact and keeps the sign, so `narrow` rounds a value of the format. -/
theorem narrowUndoesWiden : Obligations.NarrowUndoesWiden := by
  intro fmt h hfin
  obtain ⟨hfinite, hreal⟩ := widen_exact hfin
  have hround := narrow_roundsTo16 fmt hfinite
  rw [hreal] at hround
  refine f16_eq_of_sign_of_real ?_ (roundsTo16_exact hround hfin)
  rw [sign16_narrow fmt hfinite, signOf_widen hfin]

end Sys2Proof.Machine

/-! SUPPORT. ABSMAX: the largest magnitude of every block (40_block_statistics.md R61, R63). -/

namespace Sys2Proof.Machine

/-! ## fabs and fmax -/

/-- A `Num` with its sign bit cleared (00_scope.md R15). -/
def clearSign (a : Num32) : Num32 := a &&& 0x7FFFFFFF#32

theorem fabs_eq_clearSign {a : Num32} (ha : isFinite a = true) : fabs a = clearSign a := fabs_of_finite ha

theorem clearSign_toNat (a : Num32) : (clearSign a).toNat = magnitudeBits binary32 a.toNat :=
  (BitVec.toNat_and ..).trans (Nat.and_two_pow_sub_one_eq_mod a.toNat 31)

theorem magnitudeBits_clearSign (a : Num32) :
    magnitudeBits binary32 (clearSign a).toNat = magnitudeBits binary32 a.toNat := by
  rw [clearSign_toNat]
  exact Nat.mod_mod _ _

@[simp] theorem isFinite_clearSign (a : Num32) : isFinite (clearSign a) = isFinite a := by
  rw [isFinite, isFinitePattern, magnitudeBits_clearSign]
  rfl

@[simp] theorem magOf_clearSign (a : Num32) : magOf (clearSign a) = magOf a := by
  rw [magOf_eq, magnitudeBits_clearSign, magOf_eq]

@[simp] theorem signOf_clearSign (a : Num32) : signOf (clearSign a) = false := by
  rw [signOf, isNegative, clearSign_toNat]
  exact Nat.testBit_lt_two_pow (Nat.mod_lt _ (by decide))

@[simp] theorem real_clearSign (a : Num32) : real (clearSign a) = |real a| := by
  have habs := abs_signed_div (signOf a) (magOf a) 1 149
  rw [Nat.cast_one, div_one, div_one] at habs
  rw [real_eq_signed, real_eq_signed a, habs, signOf_clearSign, magOf_clearSign, signed_false, Int.cast_natCast]

/-- The larger of two finite values, as a member of both upper bounds (00_scope.md R15). -/
theorem fmax_spec {a b : Num32} (ha : isFinite a = true) (hb : isFinite b = true) :
    (fmax a b = a ∨ fmax a b = b) ∧ real a ≤ real (fmax a b) ∧ real b ≤ real (fmax a b) := by
  rw [fmax_of_finite ha hb]
  split_ifs with h
  · exact ⟨.inr rfl, (real_le_iff a b).2 h.le, le_rfl⟩
  · exact ⟨.inl rfl, le_rfl, (real_le_iff b a).2 (not_lt.1 h)⟩

/-! ## One block -/

/-- The loop of a block's absmax: a magnitude of the block or the start, and no smaller than either. -/
theorem foldl_fmax_spec {xs : List Num32} (hfin : ∀ x ∈ xs, isFinite x = true) {m : Num32}
    (hm : isFinite m = true) :
    (xs.foldl (fun m y => fmax m (fabs y)) m = m ∨ ∃ x ∈ xs, xs.foldl (fun m y => fmax m (fabs y)) m = clearSign x) ∧
    real m ≤ real (xs.foldl (fun m y => fmax m (fabs y)) m) ∧
    ∀ x ∈ xs, |real x| ≤ real (xs.foldl (fun m y => fmax m (fabs y)) m) := by
  induction xs generalizing m with
  | nil => exact ⟨.inl rfl, le_rfl, fun x hx => absurd hx List.not_mem_nil⟩
  | cons y ys ih =>
    have hy : isFinite y = true := hfin y List.mem_cons_self
    have hclear : isFinite (clearSign y) = true := by rw [isFinite_clearSign, hy]
    obtain ⟨hpick, hge, hge'⟩ := fmax_spec hm hclear
    have hfinite : isFinite (fmax m (clearSign y)) = true := by
      obtain h | h := hpick <;> rw [h] <;> assumption
    obtain ⟨hmem, hle, hbound⟩ := ih (fun x hx => hfin x (List.mem_cons_of_mem y hx)) hfinite
    rw [List.foldl_cons, fabs_eq_clearSign hy]
    refine ⟨?_, hge.trans hle, fun x hx => ?_⟩
    · obtain h | ⟨x, hx, h⟩ := hmem
      · rw [h]
        exact hpick.imp_right fun h => ⟨y, List.mem_cons_self, h⟩
      · exact .inr ⟨x, List.mem_cons_of_mem y hx, h⟩
    · obtain rfl | hx := List.mem_cons.1 hx
      · rw [← real_clearSign]
        exact hge'.trans hle
      · exact hbound x hx

/-- The absmax of a block of finite elements (40_block_statistics.md R61). -/
theorem blockAbsmax_spec {xs : List Num32} (hne : xs ≠ []) (hfin : ∀ x ∈ xs, isFinite x = true) :
    (∃ x ∈ xs, blockAbsmax xs = clearSign x) ∧ ∀ x ∈ xs, |real x| ≤ real (blockAbsmax xs) := by
  cases xs with
  | nil => exact absurd rfl hne
  | cons x xs =>
    have hx : isFinite x = true := hfin x List.mem_cons_self
    obtain ⟨hmem, hle, hbound⟩ := foldl_fmax_spec (fun y hy => hfin y (List.mem_cons_of_mem x hy))
      (m := clearSign x) (by rw [isFinite_clearSign, hx])
    rw [blockAbsmax, fabs_eq_clearSign hx]
    refine ⟨?_, fun y hy => ?_⟩
    · obtain h | ⟨y, hy, h⟩ := hmem
      · exact ⟨x, List.mem_cons_self, h⟩
      · exact ⟨y, List.mem_cons_of_mem x hy, h⟩
    · obtain rfl | hy := List.mem_cons.1 hy
      · exact (real_clearSign y).ge.trans hle
      · exact hbound y hy

/-! ## All blocks -/

/-- The indices of a block of a whole number of blocks. -/
theorem block_index_lt {n k j i : Nat} (hj : j < n / k) (hi : i < k) : j * k + i < n :=
  calc j * k + i < j * k + k := Nat.add_lt_add_left hi _
    _ = (j + 1) * k := (Nat.succ_mul j k).symm
    _ ≤ n / k * k := Nat.mul_le_mul_right k hj
    _ ≤ n := Nat.div_mul_le_self n k

/-- An index of a whole number of blocks lies in one of them. -/
theorem block_of_index_lt {n k i : Nat} (hmod : n % k = 0) (hi : i < n) : i / k < n / k :=
  Nat.div_lt_div_of_lt_of_dvd (Nat.dvd_of_mod_eq_zero hmod) hi

/-- The elements of block `j`, by their index. -/
theorem mem_block_iff {α : Type} {xs : List α} {k j : Nat} (hj : j < xs.length / k) (d x : α) :
    x ∈ (xs.drop (j * k)).take k ↔ ∃ i < k, xs.getD (j * k + i) d = x := by
  rw [List.mem_take_iff_getElem]
  constructor
  · rintro ⟨i, hi, rfl⟩
    have hik := (Nat.lt_min.1 hi).1
    refine ⟨i, hik, ?_⟩
    rw [List.getD_eq_getElem _ _ (block_index_lt hj hik), List.getElem_drop]
  · rintro ⟨i, hi, rfl⟩
    have hlt := block_index_lt hj hi
    refine ⟨i, Nat.lt_min.2 ⟨hi, by rw [List.length_drop]; omega⟩, ?_⟩
    rw [List.getD_eq_getElem _ _ hlt, List.getElem_drop]

/-- Result `j` of absmax_per_block is a magnitude of block `j`, and no magnitude of the block is larger
(40_block_statistics.md R61). -/
theorem absmaxPerBlock_spec {xs : List Num32} {k j : Nat} (hj : j < xs.length / k)
    (hfin : ∀ i < k, isFinite (xs.getD (j * k + i) 0) = true) :
    (∃ i < k, (absmaxPerBlock xs k).getD j 0 = clearSign (xs.getD (j * k + i) 0)) ∧
    ∀ i < k, |real (xs.getD (j * k + i) 0)| ≤ real ((absmaxPerBlock xs k).getD j 0) := by
  have hk : 0 < k := Nat.pos_of_ne_zero fun h0 => by simp [h0] at hj
  have hmem := mem_block_iff hj (0 : Num32)
  have hne : (xs.drop (j * k)).take k ≠ [] := List.ne_nil_of_mem ((hmem _).2 ⟨0, hk, rfl⟩)
  have hget : (absmaxPerBlock xs k).getD j 0 = blockAbsmax ((xs.drop (j * k)).take k) := by
    rw [List.getD_eq_getElem?_getD, absmaxPerBlock_getElem? xs k j hj, Option.getD_some]
  obtain ⟨⟨x, hx, hmax⟩, hbound⟩ := blockAbsmax_spec hne fun x hx => by
    obtain ⟨i, hi, rfl⟩ := (hmem x).1 hx
    exact hfin i hi
  obtain ⟨i, hi, rfl⟩ := (hmem x).1 hx
  rw [hget]
  exact ⟨⟨i, hi, hmax⟩, fun i hi => hbound _ ((hmem _).2 ⟨i, hi, rfl⟩)⟩

/-! ## ABSMAX -/

/-- Checks 1 and 2 (40_block_statistics.md R63). -/
theorem firstFailing_absmax (s : State) :
    firstFailing (checksOf .absmax s) =
      if s.regK = 0 then some ⟨.shape, 1, 1, 0⟩
      else if s.va.length % s.regK.toNat ≠ 0 then some ⟨.shape, 2, s.regK.toNat, s.va.length⟩
      else none := by
  simp [checksOf, absmaxChecks, firstFailing_cons]

/-- Settles O24: the write is `absmaxPerBlock`, block by block `absmaxPerBlock_spec`. -/
theorem absmaxWritesBlockMaxima : Obligations.AbsmaxWritesBlockMaxima := by
  intro s
  have hfirst := firstFailing_absmax s
  refine ⟨fun hk => ?_, fun hk hmod => ?_, fun hk hmod => ⟨absmaxPerBlock s.va s.regK.toNat, ?_,
    absmaxPerBlock_length s.va _, fun j hj hfin => absmaxPerBlock_spec hj hfin⟩⟩
  · rw [if_pos hk] at hfirst
    exact exec_reports hfirst (show 1 < 2 ^ 32 by decide)
  · rw [if_neg hk, if_pos hmod] at hfirst
    exact exec_reports hfirst (show 2 < 2 ^ 32 by decide)
  · rw [if_neg hk, if_neg (not_not.2 hmod)] at hfirst
    exact exec_of_passes hfirst

end Sys2Proof.Machine

/-! SUPPORT. SCOMPRESS and SDECOMPRESS: the checks and what is written (41_scaler_codec.md R65 to R71, R75, R76). -/

namespace Sys2Proof.Machine

/-- Checks 3 to 5 (41_scaler_codec.md R75). -/
theorem firstFailing_scompress (s : State) :
    firstFailing (checksOf .scompress s) =
      if s.va.length = 0 then some ⟨.shape, 3, 1, 0⟩
      else if s.regK = 0 then some ⟨.shape, 4, 1, 0⟩
      else if s.va.length % s.regK.toNat ≠ 0 then some ⟨.shape, 5, s.regK.toNat, s.va.length⟩
      else none := by
  simp [checksOf, scompressChecks, firstFailing_cons]

/-- Checks 6 to 8 (41_scaler_codec.md R76). -/
theorem firstFailing_sdecompress (s : State) :
    firstFailing (checksOf .sdecompress s) =
      if s.regK = 0 then some ⟨.corruptedState, 6, 1, 0⟩
      else if s.sq.length % s.regK.toNat ≠ 0 then some ⟨.corruptedState, 7, s.regK.toNat, s.sq.length⟩
      else if s.sf.length ≠ s.sq.length / s.regK.toNat then
        some ⟨.corruptedState, 8, s.sq.length / s.regK.toNat, s.sf.length⟩
      else none := by
  simp [checksOf, sdecompressChecks, firstFailing_cons]

/-- A degenerate chunk has factor 1.0 (41_scaler_codec.md R68). -/
theorem chunkFactor_of_isZero {a : Num32} (h : isZero a = true) : chunkFactor a = 0x3F800000#32 := if_pos h

/-- The factor of a chunk where R68 gives it a meaning. -/
theorem chunkFactor_of_meaning {a : Num32} (hz : isZero a = false) (ha : isFinite a = true)
    (h2 : isFinite (fmul 0x40000000#32 a) = true)
    (hf : isFinite (fdiv 0x43800000#32 (fmul 0x40000000#32 a)) = true)
    (hfz : isZero (fdiv 0x43800000#32 (fmul 0x40000000#32 a)) = false) :
    chunkFactor a = fdiv 0x43800000#32 (fmul 0x40000000#32 a) := by
  simp [chunkFactor, hz, ha, h2, hf, hfz]

/-- Factor `c` of `compress` (41_scaler_codec.md R67, R68). -/
theorem compress_factors_getD {xs : List Num32} {k c : Nat} (hc : c < xs.length / k) :
    (compress xs k).factors.getD c 0 = chunkFactor ((absmaxPerBlock (centered xs) k).getD c 0) :=
  chunkFactors_getD (centered xs) k c (by rwa [centered_length])

/-- Code `i` of `compress` (41_scaler_codec.md R66, R69). -/
theorem compress_codes_getD {xs : List Num32} {k i : Nat} (hi : i < xs.length) :
    (compress xs k).codes.getD i 0 =
      sat8 (rint (fmul (fsub (xs.getD i 0) (meanFn xs)) ((compress xs k).factors.getD (i / k) 0))) := by
  rw [← centered_getD xs i hi]
  exact scalerCodes_getD (centered xs) _ k i (by rwa [centered_length])

/-- Settles O25: the write is `compress`, and its parts are the lemmas about it. -/
theorem scompressWritesCodesFactorsMean : Obligations.ScompressWritesCodesFactorsMean := by
  intro s
  have hfirst := firstFailing_scompress s
  refine ⟨fun hva => ?_, fun hva hk => ?_, fun hva hk hmod => ?_, fun hva hk hmod =>
    ⟨meanFn s.va, (compress s.va s.regK.toNat).codes, (compress s.va s.regK.toNat).factors, ?_, rfl,
      compress_codes_length _ _, compress_factors_length _ _, fun c hc a ha => ?_, fun i hi => compress_codes_getD hi⟩⟩
  · rw [if_pos hva] at hfirst
    exact exec_reports hfirst (show 3 < 2 ^ 32 by decide)
  · rw [if_neg hva, if_pos hk] at hfirst
    exact exec_reports hfirst (show 4 < 2 ^ 32 by decide)
  · rw [if_neg hva, if_neg hk, if_pos hmod] at hfirst
    exact exec_reports hfirst (show 5 < 2 ^ 32 by decide)
  · rw [if_neg hva, if_neg hk, if_neg (not_not.2 hmod)] at hfirst
    exact exec_of_passes hfirst
  · have hfactor : (compress s.va s.regK.toNat).factors.getD c 0 = chunkFactor a :=
      (compress_factors_getD hc).trans (congrArg chunkFactor ha.symm)
    rw [hfactor]
    exact ⟨chunkFactor_of_isZero, chunkFactor_of_meaning⟩

/-- Settles O26: the write is `decompress`. -/
theorem sdecompressWritesRecoveredScales : Obligations.SdecompressWritesRecoveredScales := by
  intro s
  have hfirst := firstFailing_sdecompress s
  refine ⟨fun hk => ?_, fun hk hmod => ?_, fun hk hmod hlen => ?_, fun hk hmod hlen =>
    ⟨decompress s.sq s.sf s.regK.toNat s.regSM, ?_, decompress_length _ _ _ _,
      fun i hi => decompress_getD _ _ _ _ i hi⟩⟩
  · rw [if_pos hk] at hfirst
    exact exec_reports hfirst (show 6 < 2 ^ 32 by decide)
  · rw [if_neg hk, if_pos hmod] at hfirst
    exact exec_reports hfirst (show 7 < 2 ^ 32 by decide)
  · rw [if_neg hk, if_neg (not_not.2 hmod), if_pos hlen] at hfirst
    exact exec_reports hfirst (show 8 < 2 ^ 32 by decide)
  · rw [if_neg hk, if_neg (not_not.2 hmod), if_neg (not_not.2 hlen)] at hfirst
    exact exec_of_passes hfirst

end Sys2Proof.Machine

/-! SUPPORT. What a rounding can do to a value, in terms of `roundsTo` alone (00_scope.md R15). -/

namespace Sys2Proof.Machine

theorem isFinite_of_roundsTo {q : ℚ} {r : Num32} (h : roundsTo q r) (hq : |q| < overflow32) : isFinite r = true := by
  rw [roundsTo, if_pos hq] at h
  exact h.1

theorem abs_lt_overflow32_of_roundsTo {q : ℚ} {r : Num32} (h : roundsTo q r) (hr : isFinite r = true) :
    |q| < overflow32 := by
  by_contra hq
  rw [roundsTo, if_neg hq] at h
  rw [h] at hr
  split_ifs at hr <;> exact absurd hr (by decide)

/-- No finite value is nearer than the rounded one. -/
theorem abs_sub_le_of_roundsTo {q : ℚ} {r c : Num32} (h : roundsTo q r) (hr : isFinite r = true)
    (hc : isFinite c = true) : |real r - q| ≤ |real c - q| := by
  rw [roundsTo, if_pos (abs_lt_overflow32_of_roundsTo h hr)] at h
  by_cases heq : real c = real r
  · rw [heq]
  · obtain hlt | ⟨htie, -⟩ := h.2 c hc heq
    · exact hlt.le
    · exact htie.le

theorem real_zero : real 0x00000000#32 = 0 := by decide +kernel

/-- A rounded result is at most twice the exact one: zero is no nearer. -/
theorem abs_real_le_of_roundsTo {q : ℚ} {r : Num32} (h : roundsTo q r) (hr : isFinite r = true) :
    |real r| ≤ 2 * |q| := by
  have hnear := abs_sub_le_of_roundsTo h hr (c := 0x00000000#32) (by decide)
  rw [real_zero, zero_sub, abs_neg] at hnear
  have htri := abs_sub_abs_le_abs_sub (real r) q
  linarith

/-- Only a value below the smallest subnormal is rounded to zero. -/
theorem abs_lt_of_roundsTo_zero {q : ℚ} {r : Num32} (h : roundsTo q r) (hr : isFinite r = true) (hzero : real r = 0) :
    |q| < 1 / 2 ^ 149 := by
  have hpos := abs_sub_le_of_roundsTo h hr (c := 0x00000001#32) (by decide)
  have hneg := abs_sub_le_of_roundsTo h hr (c := 0x80000001#32) (by decide)
  have hsmall : (0 : ℚ) < 1 / 2 ^ 149 := by positivity
  rw [hzero, zero_sub, abs_neg, show real 0x00000001#32 = 1 / 2 ^ 149 by decide +kernel] at hpos
  rw [hzero, zero_sub, abs_neg, show real 0x80000001#32 = -(1 / 2 ^ 149) by decide +kernel] at hneg
  generalize (1 : ℚ) / 2 ^ 149 = u at *
  by_contra hge
  obtain ⟨habs, hq⟩ | ⟨habs, hq⟩ := abs_cases q
  · rw [habs] at hpos hge
    rw [abs_of_nonpos (by linarith)] at hpos
    linarith
  · rw [habs] at hneg hge
    rw [abs_of_nonneg (by linarith)] at hneg
    linarith

/-- A difference of two values that is rounded to zero is zero: it is a multiple of the smallest subnormal. -/
theorem real_eq_of_fsub_zero {a b : Num32} (ha : isFinite a = true) (hb : isFinite b = true)
    (hfin : isFinite (fsub a b) = true) (hzero : real (fsub a b) = 0) : real a = real b := by
  have hlt := abs_lt_of_roundsTo_zero (fsub_roundsTo ha hb) hfin hzero
  rw [abs_real_sub, div_lt_div_iff_of_pos_right (by positivity), Nat.cast_lt_one, Int.natAbs_eq_zero,
    sub_eq_zero] at hlt
  rw [real, real, hlt]

/-- The magnitude of a finite pattern as significand and shift. -/
theorem exists_significand {a : Num32} (ha : isFinite a = true) :
    ∃ sig s, sig < 2 ^ 24 ∧ s ≤ 253 ∧ (s ≠ 0 → 2 ^ 23 ≤ sig) ∧ magOf a = sig * 2 ^ s := by
  rw [isFinite, isFinitePattern, decide_eq_true_eq] at ha
  obtain ⟨s, sig, hm, hlow, hhigh⟩ := bits_split binary32 (magnitudeBits binary32 a.toNat)
  rw [magOf_eq, hm, bitsValue_of_significand _ _ _ hlow hhigh.le]
  rw [hm] at ha
  norm_num [binary32, infinityBits] at ha hlow hhigh
  exact ⟨sig, s, by omega, by omega, by simpa using hlow, rfl⟩

theorem abs_real_eq (a : Num32) : |real a| = (magOf a : ℚ) / 2 ^ 149 := by
  have habs := abs_signed_div (signOf a) (magOf a) 1 149
  rwa [Nat.cast_one, div_one, div_one, ← real_eq_signed] at habs

/-- Doubling is exact where it does not overflow. -/
theorem real_fmul_two {a : Num32} (ha : isFinite a = true) (h2 : isFinite (fmul 0x40000000#32 a) = true) :
    real (fmul 0x40000000#32 a) = 2 * real a := by
  have hround := fmul_roundsTo (a := 0x40000000#32) (by decide) ha
  rw [show real 0x40000000#32 = 2 by decide +kernel] at hround
  have hlt := abs_lt_overflow32_of_roundsTo hround h2
  obtain ⟨sig, s, hsig, hs, hlow, hmag⟩ := exists_significand ha
  have hs' : s + 1 ≤ 253 := by
    by_contra hge
    obtain rfl : s = 253 := by omega
    have hsig' : (2 ^ 23 : ℚ) ≤ sig := by exact_mod_cast hlow (by decide)
    rw [abs_mul, abs_real_eq, hmag, overflow32] at hlt
    norm_num at hlt
    linarith
  obtain ⟨c, hc, hu⟩ := exists_units_eq (signOf a) sig (s + 1) hsig hs'
  refine (roundsTo_exact hround hc ?_).2
  rw [real, hu, pow_succ, ← mul_assoc, ← hmag, real_eq_signed, ← signed_mul]
  push_cast
  ring

end Sys2Proof.Machine

/-! SUPPORT. The round trip of a scale through SCOMPRESS and SDECOMPRESS (41_scaler_codec.md R66 to R72). -/

namespace Sys2Proof.Machine

/-! ## The code -/

/-- The code of `p` against any value `y` in the range of `i8` and 128: `rint` loses at most 1/2, and where `sat8` cuts
128 to 127 the loss against `y` is at most 1, or that of `p` against `y` (41_scaler_codec.md R69). -/
theorem abs_code_sub_le {p : Num32} (hp : isFinite p = true) {y : ℚ} (hy : |y| ≤ 128) :
    |((sat8 (rint p)).toInt : ℚ) - y| ≤ 1 + |real p - y| ∧
    (y ≤ 255 / 2 → |((sat8 (rint p)).toInt : ℚ) - y| ≤ 1 / 2 + |real p - y|) := by
  have hr := abs_le.1 (rint_nearest hp).1
  have hy' := abs_le.1 hy
  have hself := le_abs_self (real p - y)
  have hneg := neg_abs_le (real p - y)
  rw [sat8_toInt]
  generalize rint p = R at *
  generalize real p = x at *
  rcases lt_or_ge R (-128) with hlow | hlow
  · have hR : (R : ℚ) ≤ -129 := by exact_mod_cast Int.le_sub_one_of_lt hlow
    rw [show max (-128) (min 127 R) = -128 by omega]
    push_cast
    exact ⟨abs_le.2 ⟨by linarith, by linarith⟩, fun _ => abs_le.2 ⟨by linarith, by linarith⟩⟩
  rcases le_or_gt R 127 with hhigh | hhigh
  · rw [show max (-128) (min 127 R) = R by omega]
    exact ⟨abs_le.2 ⟨by linarith, by linarith⟩, fun _ => abs_le.2 ⟨by linarith, by linarith⟩⟩
  · have hR : (128 : ℚ) ≤ R := by exact_mod_cast hhigh
    rw [show max (-128) (min 127 R) = 127 by omega]
    push_cast
    have habs := abs_nonneg (x - y)
    exact ⟨abs_le.2 ⟨by linarith, by linarith⟩, fun _ => abs_le.2 ⟨by linarith, by linarith⟩⟩

theorem abs_code_le (n : Int) : |(sat8 n).toInt| ≤ 2 ^ 24 := by
  rw [sat8_toInt, abs_le]
  omega

theorem real_one : real 0x3F800000#32 = 1 := by decide +kernel

/-! ## A degenerate chunk -/

/-- A centered scale of zero has code 0. -/
theorem code_of_zero {v : Num32} (hv : isFinite v = true) (hzero : real v = 0) :
    (sat8 (rint (fmul v 0x3F800000#32))).toInt = 0 := by
  have hround := fmul_roundsTo hv (b := 0x3F800000#32) (by decide)
  rw [hzero, zero_mul] at hround
  obtain ⟨hfin, hreal⟩ := roundsTo_exact hround (c := 0x00000000#32) (by decide) real_zero
  have hnear := (rint_nearest hfin).1
  rw [hreal, sub_zero] at hnear
  have hlt : |(rint (fmul v 0x3F800000#32) : ℚ)| < 1 := hnear.trans_lt (by norm_num)
  have hcode : rint (fmul v 0x3F800000#32) = 0 := Int.abs_lt_one_iff.1 (by exact_mod_cast hlt)
  rw [hcode]
  rfl

/-- The code 0 of a degenerate chunk is recovered as the mean itself. -/
theorem real_recovered_zero {mean : Num32} (hmean : isFinite mean = true) :
    real (fadd (fdiv (i2f 0) 0x3F800000#32) mean) = real mean := by
  rw [i2f_zero, show fdiv 0x00000000#32 0x3F800000#32 = 0x00000000#32 by decide +kernel]
  have hround := fadd_roundsTo (a := 0x00000000#32) (by decide) hmean
  rw [real_zero, zero_add] at hround
  exact (roundsTo_exact hround hmean rfl).2

/-! ## A chunk whose factor has a meaning -/

/-- The error of a recovered scale, from the loss `ε` of its code and the error of each rounding
(41_scaler_codec.md R72): the difference telescopes. -/
theorem abs_recovered_sub_le {x mean v a p d r q ε : ℚ} (ha : 0 < a)
    (hcode : |q - 128 * v / a| ≤ ε + |p - 128 * v / a|) :
    |r - x| ≤ ε * (a / 128) + (|v - (x - mean)| + |p - 128 * v / a| * (a / 128) + |d - q * (a / 128)| +
      |r - (d + mean)|) := by
  have hsplit : r - x =
      (r - (d + mean)) + (d - q * (a / 128)) + (q - 128 * v / a) * (a / 128) + (v - (x - mean)) := by
    field_simp
    ring
  have hscaled : |(q - 128 * v / a) * (a / 128)| ≤ (ε + |p - 128 * v / a|) * (a / 128) := by
    rw [abs_mul, abs_of_pos (by positivity : 0 < a / 128)]
    exact mul_le_mul_of_nonneg_right hcode (by positivity)
  have htri : |r - x| ≤ |r - (d + mean)| + |d - q * (a / 128)| + |(q - 128 * v / a) * (a / 128)| +
      |v - (x - mean)| := by
    rw [hsplit]
    exact (abs_add_le _ _).trans (add_le_add_left (abs_add_three _ _ _) _)
  linarith

section Factor

variable {a : Num32} (ha : isFinite a = true) (hpos : 0 < real a) (h2 : isFinite (fmul 0x40000000#32 a) = true)
  (hf : isFinite (fdiv 0x43800000#32 (fmul 0x40000000#32 a)) = true)

include ha hpos h2

/-- `256 / (2 * a)` is `128 / a`, rounded once: doubling is exact. -/
theorem factor_roundsTo : roundsTo (128 / real a) (fdiv 0x43800000#32 (fmul 0x40000000#32 a)) := by
  have hdouble := real_fmul_two ha h2
  have hround := fdiv_roundsTo (a := 0x43800000#32) (by decide) h2 (by rw [hdouble]; positivity)
  rwa [hdouble, show real 0x43800000#32 = 2 * 128 by decide +kernel, mul_div_mul_left _ _ two_ne_zero] at hround

include hf

/-- The factor is not zero: an absmax below `2^128` keeps `128 / a` far above the smallest subnormal. -/
theorem real_factor_ne_zero : real (fdiv 0x43800000#32 (fmul 0x40000000#32 a)) ≠ 0 := by
  intro hzero
  have hlt := abs_lt_of_roundsTo_zero (factor_roundsTo ha hpos h2) hf hzero
  have hsmall := abs_real_lt_overflow32 ha
  rw [abs_of_pos hpos, overflow32] at hsmall
  rw [abs_of_pos (by positivity), div_lt_div_iff₀ hpos (by positivity)] at hlt
  norm_num at hlt hsmall
  linarith

theorem chunkFactor_eq : chunkFactor a = fdiv 0x43800000#32 (fmul 0x40000000#32 a) :=
  chunkFactor_of_meaning ((isZero_eq_false_iff ha).2 hpos.ne') ha h2 hf
    ((isZero_eq_false_iff hf).2 (real_factor_ne_zero ha hpos h2 hf))

/-- The product of a centered scale and its factor is at most 256, so it does not overflow. -/
theorem isFinite_product {v : Num32} (hv : isFinite v = true) (hle : |real v| ≤ real a) :
    isFinite (fmul v (fdiv 0x43800000#32 (fmul 0x40000000#32 a))) = true := by
  have hfactor := abs_real_le_of_roundsTo (factor_roundsTo ha hpos h2) hf
  rw [abs_of_pos (by positivity : (0 : ℚ) < 128 / real a)] at hfactor
  refine isFinite_of_roundsTo (fmul_roundsTo hv hf) ?_
  calc |real v * real (fdiv 0x43800000#32 (fmul 0x40000000#32 a))|
    _ = |real v| * |real (fdiv 0x43800000#32 (fmul 0x40000000#32 a))| := abs_mul _ _
    _ ≤ real a * (2 * (128 / real a)) := mul_le_mul hle hfactor (abs_nonneg _) hpos.le
    _ = 256 := by field_simp; norm_num
    _ < overflow32 := by norm_num [overflow32]

/-- The five roundings of a recovered scale, each correct (41_scaler_codec.md R66 to R71). -/
theorem recovered_roundings {x mean v f p d r : Num32} {code : Int} (hx : isFinite x = true)
    (hmean : isFinite mean = true) (hv : isFinite v = true) (hcode : |code| ≤ 2 ^ 24) (hvdef : v = fsub x mean)
    (hfdef : f = fdiv 0x43800000#32 (fmul 0x40000000#32 a)) (hp : p = fmul v f) (hd : d = fdiv (i2f code) f)
    (hr : r = fadd d mean) :
    roundsTo (real x - real mean) v ∧ roundsTo (128 / real a) f ∧ roundsTo (real v * real f) p ∧
      roundsTo ((code : ℚ) / real f) d ∧ (isFinite d = true → roundsTo (real d + real mean) r) := by
  obtain ⟨hfin, hexact⟩ := i2f_exact hcode
  have hfne := real_factor_ne_zero ha hpos h2 hf
  have hfactor := factor_roundsTo ha hpos h2
  rw [← hfdef] at hf hfne hfactor
  rw [hp, hd, hr, ← hexact]
  refine ⟨?_, hfactor, fmul_roundsTo hv hf, fdiv_roundsTo hfin hf hfne, fun hdfin => ?_⟩
  · rw [hvdef]
    exact fsub_roundsTo hx hmean
  · rw [hd]
    exact fadd_roundsTo hdfin hmean

/-- The error of a recovered scale (41_scaler_codec.md R72): the product `p` of the centered scale `v` is the only value
that is cut to a code, and whatever the quotient `d` and the sum `r` are, their own errors are counted. -/
theorem abs_recovered_sub_real_le {x mean v p d r : Num32} {δ : ℚ} (hv : isFinite v = true) (hle : |real v| ≤ real a)
    (hp : p = fmul v (fdiv 0x43800000#32 (fmul 0x40000000#32 a)))
    (hδ : δ = |real v - (real x - real mean)| + |real p - 128 * real v / real a| * (real a / 128) +
      |real d - ((sat8 (rint p)).toInt : ℚ) * (real a / 128)| + |real r - (real d + real mean)|) :
    |real r - real x| ≤ real a / 128 + δ ∧
      (real v ≤ real a - real a / 256 → |real r - real x| ≤ real a / 256 + δ) := by
  have hpfin := isFinite_product ha hpos h2 hf hv hle
  rw [← hp] at hpfin
  have hexact : |128 * real v / real a| ≤ 128 := by
    rw [abs_div, abs_mul, abs_of_pos hpos, div_le_iff₀ hpos]
    norm_num
    exact hle
  obtain ⟨hone, hhalf⟩ := abs_code_sub_le hpfin hexact
  rw [hδ]
  refine ⟨(abs_recovered_sub_le hpos hone).trans_eq (by ring), fun hclamp => ?_⟩
  refine (abs_recovered_sub_le hpos (hhalf ?_)).trans_eq (by ring)
  rw [div_le_iff₀ hpos]
  linarith

end Factor

/-! ## SCOMPRESS and then SDECOMPRESS -/

/-- What a successful SCOMPRESS has checked and written (41_scaler_codec.md R75). -/
theorem scompress_succeeds {s t : State} (h : exec .scompress s = .next t) (ht : t.errors = ⟨0, 0, 0, 0⟩) :
    s.regK ≠ 0 ∧ s.va.length % s.regK.toNat = 0 ∧ t = finish (scompressEffect s) := by
  obtain ⟨f, -, rfl⟩ | ⟨hnone, rfl⟩ := exec_cases h
  · exact absurd (congrArg ErrorRegs.err ht) (errorCode_ne_zero f.kind)
  · rw [firstFailing_scompress] at hnone
    split_ifs at hnone with _ hk hmod
    exact ⟨hk, not_not.1 hmod, rfl⟩

/-- SDECOMPRESS runs on what SCOMPRESS has just written: the lengths agree. -/
theorem sdecompress_after_scompress {s : State} (hk : s.regK ≠ 0) (hmod : s.va.length % s.regK.toNat = 0) :
    exec .sdecompress (finish (scompressEffect s)) =
      .next (finish (effectOf .sdecompress (finish (scompressEffect s)))) := by
  refine exec_of_passes ?_
  rw [firstFailing_sdecompress]
  simpa [scompressEffect, hmod] using hk

/-- The absmax of the chunk of a centered scale bounds it (41_scaler_codec.md R67). -/
theorem chunk_absmax_spec {xs : List Num32} {k i : Nat} {mean a : Num32} (hk : 0 < k) (hmod : xs.length % k = 0)
    (hi : i < xs.length) (ha : a = (absmaxPerBlock (xs.map fun y => fsub y mean) k).getD (i / k) 0)
    (hfin : ∀ j < k, isFinite (fsub (xs.getD (i / k * k + j) 0) mean) = true) :
    isFinite a = true ∧ |real (fsub (xs.getD i 0) mean)| ≤ real a := by
  have hchunk := block_of_index_lt hmod hi
  have hget : ∀ j < k, (xs.map fun y => fsub y mean).getD (i / k * k + j) 0 =
      fsub (xs.getD (i / k * k + j) 0) mean := fun j hj => by
    have hlt := block_index_lt hchunk hj
    rw [List.getD_eq_getElem _ _ (by rwa [List.length_map]), List.getD_eq_getElem _ _ hlt, List.getElem_map]
  obtain ⟨⟨j, hj, hmax⟩, hbound⟩ := absmaxPerBlock_spec (xs := xs.map fun y => fsub y mean)
    (by rwa [List.length_map]) fun j hj => by rw [hget j hj]; exact hfin j hj
  have hself := hbound (i % k) (Nat.mod_lt i hk)
  rw [hget _ (Nat.mod_lt i hk), Nat.div_add_mod', ← ha] at hself
  rw [← ha, hget j hj] at hmax
  exact ⟨by rw [hmax, isFinite_clearSign, hfin j hj], hself⟩

/-- The factor, the code and the recovered scale of index `i` (41_scaler_codec.md R68, R69, R71). -/
theorem roundTrip_values {s t : State} {i : Nat} (ht : t = finish (scompressEffect s))
    (hmod : s.va.length % s.regK.toNat = 0) (hi : i < s.va.length) :
    t.sf.getD (i / s.regK.toNat) 0 =
      chunkFactor ((absmaxPerBlock (s.va.map fun y => fsub y t.regSM) s.regK.toNat).getD (i / s.regK.toNat) 0) ∧
    t.sq.getD i 0 = sat8 (rint (fmul (fsub (s.va.getD i 0) t.regSM) (t.sf.getD (i / s.regK.toNat) 0))) ∧
    (effectOf .sdecompress t).vr.getD i 0 =
      fadd (fdiv (i2f (t.sq.getD i 0).toInt) (t.sf.getD (i / s.regK.toNat) 0)) t.regSM := by
  subst ht
  refine ⟨compress_factors_getD (block_of_index_lt hmod hi), compress_codes_getD hi, decompress_getD _ _ _ _ i ?_⟩
  simpa [scompressEffect] using hi

/-- A scale of a degenerate chunk comes back as it was (41_scaler_codec.md R72): its centered value is zero, so it is
the mean. -/
theorem real_recovered_of_isZero {x mean a : Num32} (hx : isFinite x = true) (hmean : isFinite mean = true)
    (hv : isFinite (fsub x mean) = true) (ha : isFinite a = true) (hle : |real (fsub x mean)| ≤ real a)
    (hz : isZero a = true) :
    real (fadd (fdiv (i2f (sat8 (rint (fmul (fsub x mean) (chunkFactor a)))).toInt) (chunkFactor a)) mean) =
      real x := by
  rw [(isZero_iff_real ha).1 hz] at hle
  have hvzero : real (fsub x mean) = 0 := abs_nonpos_iff.1 hle
  rw [chunkFactor_of_isZero hz, code_of_zero hv hvzero, real_recovered_zero hmean,
    real_eq_of_fsub_zero hx hmean hv hvzero]

theorem compress_example :
    compress [0x3F000000#32, 0x3FC00000#32] 2 = ⟨[0x80#8, 0x7F#8], [0x43800000#32], 0x3F800000#32⟩ := by
  decide +kernel

theorem decompress_example :
    decompress [0x80#8, 0x7F#8] [0x43800000#32] 2 0x3F800000#32 = [0x3F000000#32, 0x3FBF8000#32] := by
  decide +kernel

/-- The example of 41_scaler_codec.md R75 and R76: 128 is cut to 127, and 1.5 comes back as 1.49609375. -/
theorem scaleRoundTrip_example {s : State} (hva : s.va = [0x3F000000#32, 0x3FC00000#32]) (hk : s.regK = 2) :
    ∃ t u : State, exec .scompress s = .next t ∧ t.sq = [0x80#8, 0x7F#8] ∧ t.sf = [0x43800000#32] ∧
      t.regSM = 0x3F800000#32 ∧ exec .sdecompress t = .next u ∧ u.vr = [0x3F000000#32, 0x3FBF8000#32] := by
  have hmod : s.va.length % s.regK.toNat = 0 := by rw [hva, hk]; rfl
  have hpasses : firstFailing (checksOf .scompress s) = none := by
    rw [firstFailing_scompress, hva, hk]
    rfl
  refine ⟨_, _, exec_of_passes hpasses, ?_, ?_, ?_, sdecompress_after_scompress (by rw [hk]; decide) hmod, ?_⟩ <;>
    simp [effectOf, scompressEffect, hva, hk, compress_example, decompress_example]

/-- Settles O27: the loss of a code by `abs_code_sub_le`, a degenerate chunk by its zero code, any other by the sum of
the errors of its roundings. -/
theorem scaleRoundTripIsLossyAndBounded : Obligations.ScaleRoundTripIsLossyAndBounded := by
  refine ⟨fun p hp hle => by simpa using abs_code_sub_le hp hle, fun s t hs hnoerr => ?_,
    fun s hva hk => scaleRoundTrip_example hva hk⟩
  obtain ⟨hk, hmod, ht⟩ := scompress_succeeds hs hnoerr
  have hk' : 0 < s.regK.toNat := Nat.pos_of_ne_zero fun h0 => hk (BitVec.eq_of_toNat_eq h0)
  refine ⟨finish (effectOf .sdecompress t), by rw [ht]; exact sdecompress_after_scompress hk hmod, rfl,
    by simp [ht, effectOf, scompressEffect], ?_⟩
  rintro i k mean x v a f p d r q hi rfl rfl rfl rfl ha rfl rfl rfl rfl rfl hmean hchunk
  obtain ⟨hfactor, hcode, hrec⟩ := roundTrip_values ht hmod hi
  rw [← ha] at hfactor
  obtain ⟨hx, hv⟩ : isFinite (s.va.getD i 0) = true ∧ isFinite (fsub (s.va.getD i 0) t.regSM) = true := by
    have hself := hchunk (i % s.regK.toNat) (Nat.mod_lt i hk')
    rwa [Nat.div_add_mod'] at hself
  obtain ⟨hafin, hle⟩ := chunk_absmax_spec hk' hmod hi ha fun j hj => (hchunk j hj).2
  refine ⟨fun hz => ?degenerate, fun hz h2 hf => ?meaning⟩
  case degenerate =>
    rw [finish_vr, hrec, hcode, hfactor]
    exact real_recovered_of_isZero hx hmean hv hafin hle hz
  case meaning =>
    have hpos : 0 < real a := lt_of_le_of_ne ((abs_nonneg _).trans hle) ((isZero_eq_false_iff hafin).1 hz).symm
    rw [chunkFactor_eq hafin hpos h2 hf] at hfactor
    refine ⟨recovered_roundings hafin hpos h2 hf hx hmean hv (by rw [hcode]; exact abs_code_le _) rfl hfactor rfl rfl
      hrec, fun δ hδ => ?_⟩
    rw [hcode] at hδ
    exact abs_recovered_sub_real_le hafin hpos h2 hf hv hle (congrArg _ hfactor) hδ

end Sys2Proof.Machine

/-! SUPPORT. The two searches of the CodeTable (42_element_codec.md R79 to R86). -/

namespace Sys2Proof.Machine

/-! ## The table as a list -/

theorem codeTable_drop {ct : CodeTable} {i : Nat} (hi : i < 16) :
    ct.toList.drop i = tableWord ct i :: ct.toList.drop (i + 1) := by
  have hlt : i < ct.toList.length := by simpa using hi
  rw [List.drop_eq_getElem_cons hlt, tableWord, List.getD_eq_getElem _ _ hlt]

theorem codeTable_drop_all (ct : CodeTable) : ct.toList.drop 16 = [] := List.drop_eq_nil_of_le (by simp)

theorem ofNat4_toNat {i : Nat} (hi : i < 16) : (BitVec.ofNat 4 i).toNat = i := by
  rw [BitVec.toNat_ofNat]
  exact Nat.mod_eq_of_lt hi

/-! ## quantize_nearest -/

/-- The distance of entry `j` from `v`, in multiples of `2^-149`. -/
def entryDistance (ct : CodeTable) (v : Int) (j : Nat) : Nat := (units (tableWord ct j) - v).natAbs

/-- `code` is the smallest index of a nearest one among the first `n` entries (42_element_codec.md R79, R80). -/
def NearestAmong (ct : CodeTable) (v : Int) (code n : Nat) : Prop :=
  ∀ j < n, entryDistance ct v code ≤ entryDistance ct v j ∧
    (entryDistance ct v code = entryDistance ct v j → code ≤ j)

/-- A strictly nearer entry replaces the best one so far. -/
theorem NearestAmong.replace {ct : CodeTable} {v : Int} {code n : Nat} (h : NearestAmong ct v code n)
    (hlt : entryDistance ct v n < entryDistance ct v code) : NearestAmong ct v n (n + 1) := by
  intro j hj
  obtain hj | rfl := Nat.lt_succ_iff_lt_or_eq.1 hj
  · have := (h j hj).1
    omega
  · omega

/-- Any other entry, a tie included, leaves it. -/
theorem NearestAmong.keep {ct : CodeTable} {v : Int} {code n : Nat} (h : NearestAmong ct v code n) (hcode : code < n)
    (hge : ¬ entryDistance ct v n < entryDistance ct v code) : NearestAmong ct v code (n + 1) := by
  intro j hj
  obtain hj | rfl := Nat.lt_succ_iff_lt_or_eq.1 hj
  · exact h j hj
  · omega

/-- The loop of quantize_nearest ends with the smallest index of a nearest entry (42_element_codec.md R79, R80). -/
theorem nearestLoop_spec {ct : CodeTable} {v : Int} {best : U4} {i : Nat} (hi : i ≤ 16) (hbest : best.toNat < i)
    (h : NearestAmong ct v best.toNat i) :
    NearestAmong ct v (nearestLoop v best (entryDistance ct v best.toNat) i (ct.toList.drop i)).toNat 16 := by
  induction hn : 16 - i generalizing best i with
  | zero =>
    obtain rfl : i = 16 := by omega
    rwa [codeTable_drop_all]
  | succ n ih =>
    have hlt : i < 16 := by omega
    rw [codeTable_drop hlt, nearestLoop, ← entryDistance]
    split_ifs with hnear
    · have hcode := ofNat4_toNat hlt
      have := ih (best := BitVec.ofNat 4 i) (i := i + 1) hlt (by omega) (by rw [hcode]; exact h.replace hnear)
        (by omega)
      rwa [hcode] at this
    · exact ih hlt (by omega) (h.keep hbest hnear) (by omega)

/-- The code of a finite value is the smallest index of a nearest entry. -/
theorem quantizeNearest_spec (ct : CodeTable) {v : Num32} (hv : isFinite v = true) :
    NearestAmong ct (units v) (quantizeNearest ct v).toNat 16 := by
  have hfirst : NearestAmong ct (units v) (0#4).toNat 1 := fun j hj => by
    obtain rfl : j = 0 := by omega
    exact ⟨le_rfl, fun _ => le_rfl⟩
  have hentry : tableWord ct (0#4).toNat = ct[0] := tableWord_eq_get ct 0
  have hspec := nearestLoop_spec (by decide) (by decide) hfirst
  rw [entryDistance, hentry, List.drop_one] at hspec
  rwa [quantizeNearest, if_pos hv]

/-- A comparison of distances of values is one of distances of multiples of `2^-149`. -/
theorem abs_real_sub_le_iff (a b v : Num32) :
    |real a - real v| ≤ |real b - real v| ↔ (units a - units v).natAbs ≤ (units b - units v).natAbs := by
  rw [abs_real_sub, abs_real_sub, div_le_div_iff_of_pos_right (by positivity), Nat.cast_le]

theorem abs_real_sub_eq_iff (a b v : Num32) :
    |real a - real v| = |real b - real v| ↔ (units a - units v).natAbs = (units b - units v).natAbs := by
  rw [abs_real_sub, abs_real_sub, div_left_inj' (by positivity), Nat.cast_inj]

/-- Settles O29: QNEAREST has no check and writes `quantizeNearest`. -/
theorem qnearestPicksNearestSmallestIndex : Obligations.QnearestPicksNearestSmallestIndex := by
  refine fun s => ⟨quantizeNearest s.params.codeTable s.regXV, exec_of_passes (i := .qnearest) rfl, fun hv j hj => ?_⟩
  rw [abs_real_sub_le_iff, abs_real_sub_eq_iff]
  exact quantizeNearest_spec s.params.codeTable hv j hj

/-- Below its own entry's midpoints the code counts: midpoint `i` lies below the value exactly for `i` below the code
(42_element_codec.md R81). -/
theorem two_mul_units_gt_iff {ct : CodeTable} (hct : codeTableWf ct) {v : Int} {code i : Nat} (hcode : code < 16)
    (h : NearestAmong ct v code 16) (hi : i < 15) :
    units (tableWord ct i) + units (tableWord ct (i + 1)) < 2 * v ↔ i < code := by
  have hstep := units_tableWord_lt hct (Nat.lt_add_one i) (by omega)
  constructor
  · intro hv
    by_contra hge
    have hle : units (tableWord ct code) ≤ units (tableWord ct i) := by
      obtain rfl | hlt := (Nat.not_lt.1 hge).eq_or_lt
      · exact le_rfl
      · exact (units_tableWord_lt hct hlt (by omega)).le
    have hnear := (h (i + 1) (by omega)).1
    unfold entryDistance at hnear
    omega
  · intro hlt
    have hle : units (tableWord ct (i + 1)) ≤ units (tableWord ct code) := by
      obtain heq | hlt' := (Nat.succ_le_of_lt hlt).eq_or_lt
      · rw [← heq]
      · exact (units_tableWord_lt hct hlt' hcode).le
    obtain ⟨hnear, htie⟩ := h i (by omega)
    unfold entryDistance at hnear htie
    omega

theorem midpoint_lt_iff (ct : CodeTable) (i : Nat) (v : Num32) :
    Machine.midpoint ct i < real v ↔ units (tableWord ct i) + units (tableWord ct (i + 1)) < 2 * units v := by
  rw [Machine.midpoint, real, real, real, ← add_div, div_right_comm, div_lt_div_iff_of_pos_right (by positivity),
    div_lt_iff₀ two_pos, mul_comm]
  exact_mod_cast Iff.rfl

theorem length_filter_lt (code : U4) :
    ((List.range 15).filter fun i => decide (i < code.toNat)).length = code.toNat := by
  revert code; decide

/-- Settles O30: the midpoints below the value are those with an index below the code. -/
theorem nearestCountsMidpointsBelow : Obligations.NearestCountsMidpointsBelow := by
  intro ct v hct hv
  have hspec := quantizeNearest_spec ct hv
  rw [← length_filter_lt]
  congr 1
  refine List.filter_congr fun i hi => ?_
  rw [decide_eq_decide, midpoint_lt_iff]
  exact (two_mul_units_gt_iff hct (quantizeNearest ct v).isLt hspec (List.mem_range.1 hi)).symm

/-! ## quantize_ceil -/

/-- `code` is the smallest index of an entry not below `v`, or 15 where every entry is (42_element_codec.md R83). -/
def CeilOf (ct : CodeTable) (v : Int) (code : U4) : Prop :=
  (v ≤ units (tableWord ct code.toNat) ∧ ∀ j < code.toNat, units (tableWord ct j) < v) ∨
  (code = 15 ∧ ∀ j < 16, units (tableWord ct j) < v)

theorem ceilLoop_spec {ct : CodeTable} {v : Int} {i : Nat} (hi : i ≤ 16) (h : ∀ j < i, units (tableWord ct j) < v) :
    CeilOf ct v (ceilLoop v i (ct.toList.drop i)) := by
  induction hn : 16 - i generalizing i with
  | zero =>
    obtain rfl : i = 16 := by omega
    rw [codeTable_drop_all]
    exact .inr ⟨rfl, h⟩
  | succ n ih =>
    have hlt : i < 16 := by omega
    rw [codeTable_drop hlt, ceilLoop]
    split_ifs with hle
    · left
      rw [ofNat4_toNat hlt]
      exact ⟨hle, h⟩
    · refine ih hlt (fun j hj => ?_) (by omega)
      obtain hj | rfl := Nat.lt_succ_iff_lt_or_eq.1 hj
      · exact h j hj
      · exact not_le.1 hle

theorem quantizeCeil_spec (ct : CodeTable) {v : Num32} (hv : isFinite v = true) :
    CeilOf ct (units v) (quantizeCeil ct v) := by
  rw [quantizeCeil, if_pos hv]
  exact ceilLoop_spec (i := 0) (by decide) fun j hj => absurd hj (Nat.not_lt_zero j)

/-- Settles O33: QCEIL has no check and writes `quantizeCeil`. -/
theorem qceilPicksSmallestEntryNotBelow : Obligations.QceilPicksSmallestEntryNotBelow := by
  refine fun s => ⟨quantizeCeil s.params.codeTable s.regXV, exec_of_passes (i := .qceil) rfl, fun hv => ?_⟩
  simp only [real_le_iff, real_lt_iff]
  obtain ⟨hle, hbelow⟩ | ⟨hcode, hall⟩ := quantizeCeil_spec s.params.codeTable hv
  · exact ⟨fun _ => ⟨hle, hbelow⟩, fun hall => absurd (hall _ (BitVec.isLt _)) (not_lt.2 hle)⟩
  · exact ⟨fun ⟨j, hj, hge⟩ => absurd (hall j hj) (not_lt.2 hge), fun _ => hcode⟩

/-! ## The entries themselves -/

/-- The entries of a well-formed table are different values. -/
theorem tableWord_injective {ct : CodeTable} (hct : codeTableWf ct) {i j : U4}
    (h : units (tableWord ct i.toNat) = units (tableWord ct j.toNat)) : i = j := by
  refine BitVec.eq_of_toNat_eq ?_
  obtain hlt | heq | hlt := Nat.lt_trichotomy i.toNat j.toNat
  · exact absurd h (units_tableWord_lt hct hlt j.isLt).ne
  · exact heq
  · exact absurd h (units_tableWord_lt hct hlt i.isLt).ne'

theorem quantizeNearest_dequantize {ct : CodeTable} (hct : codeTableWf ct) (i : U4) :
    quantizeNearest ct (dequantize ct i) = i := by
  have hspec := (quantizeNearest_spec ct (isFinite_dequantize hct i) i.toNat i.isLt).1
  rw [dequantize_eq_tableWord] at hspec ⊢
  refine tableWord_injective hct ?_
  unfold entryDistance at hspec
  omega

theorem quantizeCeil_dequantize {ct : CodeTable} (hct : codeTableWf ct) (i : U4) :
    quantizeCeil ct (dequantize ct i) = i := by
  have hspec := quantizeCeil_spec ct (isFinite_dequantize hct i)
  rw [dequantize_eq_tableWord] at hspec ⊢
  obtain ⟨hle, hbelow⟩ | ⟨-, hall⟩ := hspec
  · refine BitVec.eq_of_toNat_eq (le_antisymm ?_ ?_)
    · by_contra hgt
      exact absurd (hbelow _ (not_le.1 hgt)) (lt_irrefl _)
    · by_contra hgt
      exact absurd (units_tableWord_lt hct (not_le.1 hgt) i.isLt) (not_lt.2 hle)
  · exact absurd (hall _ i.isLt) (lt_irrefl _)

/-- Settles O31: the ties are evaluated; an entry is at distance zero from itself alone. -/
theorem nearestOnTiesAndEntries : Obligations.NearestOnTiesAndEntries :=
  ⟨by decide +kernel, fun _ hct i => ⟨quantizeNearest_dequantize hct i, quantizeCeil_dequantize hct i⟩⟩

end Sys2Proof.Machine

/-! SUPPORT. pack and unpack are inverse (43_packer.md R91). -/

namespace Sys2Proof.Machine

theorem unpackBytes_packCodes {codes : List U4} (h : codes.length % 2 = 0) :
    unpackBytes (packCodes codes) = codes := by
  induction codes using packCodes.induct with
  | case1 hi lo rest ih =>
    rw [packCodes, unpackBytes, highNibble_packByte, lowNibble_packByte,
      ih (by simp only [List.length_cons] at h; omega)]
  | case2 c => simp at h
  | case3 => rfl

theorem packCodes_unpackBytes (bytes : List U8) : packCodes (unpackBytes bytes) = bytes := by
  induction bytes with
  | nil => rfl
  | cons y ys ih => rw [unpackBytes, packCodes, packByte_nibbles, ih]

/-- Settles O36: nibbles joined and split again, pair by pair. -/
theorem packAndUnpackAreInverse : Obligations.PackAndUnpackAreInverse :=
  ⟨fun _ h => unpackBytes_packCodes h, packCodes_unpackBytes⟩

end Sys2Proof.Machine

/-! SUPPORT. The normalization of an element and its round trip through the CodeTable (44_packed_weight_codec.md R97,
R102). -/

namespace Sys2Proof.Machine

theorem real_neg_one : real 0xBF800000#32 = -1 := by decide +kernel

/-- Rounding does not leave `[-1, 1]`: the bounds are values. -/
theorem abs_real_le_one_of_roundsTo {q : ℚ} {r : Num32} (h : roundsTo q r) (hq : |q| ≤ 1) :
    isFinite r = true ∧ |real r| ≤ 1 := by
  have hr := isFinite_of_roundsTo h (hq.trans_lt (by norm_num [overflow32]))
  obtain ⟨hlow, hhigh⟩ := abs_le.1 hq
  refine ⟨hr, abs_le.2 ⟨?_, ?_⟩⟩
  · have hnear := abs_sub_le_of_roundsTo h hr (c := 0xBF800000#32) (by decide)
    rw [real_neg_one, abs_of_nonpos (by linarith : -1 - q ≤ 0)] at hnear
    have := (neg_le_abs (real r - q)).trans hnear
    linarith
  · have hnear := abs_sub_le_of_roundsTo h hr (c := 0x3F800000#32) (by decide)
    rw [real_one, abs_of_nonneg (by linarith : 0 ≤ 1 - q)] at hnear
    have := (le_abs_self (real r - q)).trans hnear
    linarith

theorem normalize_of_isZero {x scale : Num32} (h : isZero scale = true) :
    Machine.normalize x scale = 0x00000000#32 := if_pos h

theorem normalize_of_ne_zero {x scale : Num32} (h : isZero scale = false) :
    Machine.normalize x scale = fdiv x scale := by simp [Machine.normalize, h]

section Normalize

variable {x scale : Num32} (hx : isFinite x = true) (hs : isFinite scale = true) (hpos : 0 < real scale)

include hx hs hpos

theorem normalize_roundsTo : roundsTo (real x / real scale) (Machine.normalize x scale) := by
  rw [normalize_of_ne_zero ((isZero_eq_false_iff hs).2 hpos.ne')]
  exact fdiv_roundsTo hx hs hpos.ne'

theorem normalize_in_unit_range (hle : |real x| ≤ real scale) :
    isFinite (Machine.normalize x scale) = true ∧ |real (Machine.normalize x scale)| ≤ 1 := by
  refine abs_real_le_one_of_roundsTo (normalize_roundsTo hx hs hpos) ?_
  rw [abs_div, abs_of_pos hpos]
  exact (div_le_one hpos).2 hle

/-- A quotient that is the value of a pattern other than zero is that pattern. -/
theorem normalize_eq {c : Num32} (hc : isFinite c = true) (hne : real c ≠ 0) (hq : real x = real c * real scale) :
    Machine.normalize x scale = c := by
  have hquot : real c = real x / real scale := by rw [hq, mul_div_cancel_right₀ _ hpos.ne']
  have hreal := (roundsTo_exact (normalize_roundsTo hx hs hpos) hc hquot).2
  rw [← hquot] at hreal
  exact num_eq_of_real_eq hreal (by rwa [hreal])

end Normalize

/-- Settles O39: the quotient is rounded once, within bounds that are values themselves. -/
theorem normalizedElementsStayInUnitRange : Obligations.NormalizedElementsStayInUnitRange := by
  refine fun x scale hx hs => ⟨normalize_of_isZero, fun hpos hle => ?_⟩
  obtain ⟨hfin, hunit⟩ := normalize_in_unit_range hx hs hpos hle
  refine ⟨hfin, hunit, fun heq => ?_, fun heq => ?_⟩
  · exact normalize_eq hx hs hpos (by decide) (by rw [real_one]; norm_num) (by rw [real_one, one_mul, heq])
  · exact normalize_eq hx hs hpos (by decide) (by rw [real_neg_one]; norm_num) (by rw [real_neg_one, neg_one_mul, heq])

/-! ## The entries of a well-formed table -/

theorem real_tableWord_zero {ct : CodeTable} (hct : codeTableWf ct) : real (tableWord ct 0) = -1 := by
  obtain ⟨hfirst, -⟩ := hct
  rw [show tableWord ct 0 = 0xBF800000#32 from (tableWord_eq_get ct 0).trans hfirst, real_neg_one]

theorem real_tableWord_fifteen {ct : CodeTable} (hct : codeTableWf ct) : real (tableWord ct 15) = 1 := by
  obtain ⟨-, -, hlast, -⟩ := hct
  rw [show tableWord ct 15 = 0x3F800000#32 from (tableWord_eq_get ct 15).trans hlast, real_one]

theorem real_tableWord_mono {ct : CodeTable} (hct : codeTableWf ct) {i j : Nat} (hij : i ≤ j) (hj : j < 16) :
    real (tableWord ct i) ≤ real (tableWord ct j) := by
  obtain rfl | hlt := hij.eq_or_lt
  · exact le_rfl
  · exact (real_le_iff _ _).2 (units_tableWord_lt hct hlt hj).le

theorem abs_real_tableWord_le_one {ct : CodeTable} (hct : codeTableWf ct) {i : Nat} (hi : i < 16) :
    |real (tableWord ct i)| ≤ 1 := by
  have hlow := real_tableWord_mono hct (Nat.zero_le i) hi
  have hhigh := real_tableWord_mono hct (Nat.le_of_lt_succ hi) (by decide)
  rw [real_tableWord_zero hct] at hlow
  rw [real_tableWord_fifteen hct] at hhigh
  exact abs_le.2 ⟨hlow, hhigh⟩

/-- Entry 7 is `+0` (42_element_codec.md R78, 93_implementation_defined.md U7). -/
theorem dequantize_seven {ct : CodeTable} (hct : codeTableWf ct) : dequantize ct 7 = 0x00000000#32 := by
  obtain ⟨-, hzero, -⟩ := hct
  exact hzero

/-- The code of `+0` is 7. -/
theorem quantizeNearest_zero {ct : CodeTable} (hct : codeTableWf ct) : quantizeNearest ct 0x00000000#32 = 7 := by
  have h := quantizeNearest_dequantize hct 7
  rwa [dequantize_seven hct] at h

/-- The nearest entry of a value in `[-1, 1]` lies within half the largest gap: the value is between it and a neighbour
that is no nearer (44_packed_weight_codec.md R102). -/
theorem abs_entry_sub_le {ct : CodeTable} {h : ℚ} (hct : codeTableWf ct)
    (hgap : ∀ i < 15, real (tableWord ct (i + 1)) - real (tableWord ct i) ≤ 2 * h) {v : Num32}
    (hv : isFinite v = true) (hunit : |real v| ≤ 1) :
    |real (tableWord ct (quantizeNearest ct v).toNat) - real v| ≤ h := by
  have hcode := (quantizeNearest ct v).isLt
  have hnear : ∀ j < 16, |real (tableWord ct (quantizeNearest ct v).toNat) - real v| ≤
      |real (tableWord ct j) - real v| := fun j hj =>
    (abs_real_sub_le_iff _ _ v).2 (quantizeNearest_spec ct hv j hj).1
  generalize (quantizeNearest ct v).toNat = r at *
  obtain ⟨hlow, hhigh⟩ := abs_le.1 hunit
  rcases le_or_gt (real (tableWord ct r)) (real v) with hle | hgt
  · rw [abs_of_nonpos (by linarith)] at hnear ⊢
    obtain hlt | rfl := Nat.lt_or_eq_of_le (Nat.le_of_lt_succ hcode)
    · have hnext := hnear (r + 1) (by omega)
      have hstep := (real_lt_iff _ _).2 (units_tableWord_lt hct (Nat.lt_add_one r) (by omega))
      have := hgap r hlt
      rcases abs_cases (real (tableWord ct (r + 1)) - real v) with ⟨habs, -⟩ | ⟨habs, -⟩ <;> rw [habs] at hnext <;>
        linarith
    · have hfirst := hgap 0 (by decide)
      have hmono := real_tableWord_mono hct (Nat.zero_le 1) (by decide)
      rw [real_tableWord_fifteen hct] at hle ⊢
      rw [Nat.zero_add] at hfirst
      linarith
  · rw [abs_of_pos (by linarith)] at hnear ⊢
    obtain rfl | hr := Nat.eq_zero_or_pos r
    · rw [real_tableWord_zero hct] at hgt
      linarith
    · obtain ⟨p, rfl⟩ := Nat.exists_eq_succ_of_ne_zero hr.ne'
      rw [Nat.succ_eq_add_one] at *
      have hprev := hnear p (by omega)
      have hstep := (real_lt_iff _ _).2 (units_tableWord_lt hct (Nat.lt_add_one p) hcode)
      have := hgap p (by omega)
      rcases abs_cases (real (tableWord ct p) - real v) with ⟨habs, -⟩ | ⟨habs, -⟩ <;> rw [habs] at hprev <;> linarith

/-- The error of a recovered element (44_packed_weight_codec.md R102): the difference telescopes. -/
theorem abs_element_sub_le {x scale recovered n t y h : ℚ} (hpos : 0 < scale) (ht : |t| ≤ 1) (htn : |t - n| ≤ h) :
    |y - x| ≤ h * scale + |recovered - scale| + |n - x / scale| * scale + |y - t * recovered| := by
  have hsplit : y - x = (y - t * recovered) + t * (recovered - scale) + (t - n) * scale + (n - x / scale) * scale := by
    field_simp
    ring
  have hscaled : |t * (recovered - scale)| ≤ |recovered - scale| := by
    rw [abs_mul]
    exact mul_le_of_le_one_left (abs_nonneg _) ht
  have hentry : |(t - n) * scale| ≤ h * scale := by
    rw [abs_mul, abs_of_pos hpos]
    exact mul_le_mul_of_nonneg_right htn hpos.le
  have hquot : |(n - x / scale) * scale| = |n - x / scale| * scale := by rw [abs_mul, abs_of_pos hpos]
  have htri : |y - x| ≤ |y - t * recovered| + |t * (recovered - scale)| + |(t - n) * scale| +
      |(n - x / scale) * scale| := by
    rw [hsplit]
    exact (abs_add_le _ _).trans (add_le_add_left (abs_add_three _ _ _) _)
  linarith

theorem defaultCodeTable_gaps : ∀ i < 15,
    real (tableWord defaultCodeTable (i + 1)) - real (tableWord defaultCodeTable i) ≤
      real (tableWord defaultCodeTable 1) - real (tableWord defaultCodeTable 0) := by decide +kernel

/-- Settles O40: a zero scale gives the entry 0; otherwise the nearest entry is within `h` of the quotient, and the
errors add up. -/
theorem elementRoundTripIsBounded : Obligations.ElementRoundTripIsBounded := by
  refine ⟨defaultCodeTable_gaps, fun ct h hct hgap => ⟨fun v hv hunit => abs_entry_sub_le hct hgap hv hunit, ?_⟩⟩
  rintro x scale recovered n t y hx hs hle hrec rfl rfl rfl
  have hentry : isFinite (tableWord ct (quantizeNearest ct (Machine.normalize x scale)).toNat) = true := by
    rw [← dequantize_eq_tableWord]
    exact isFinite_dequantize hct _
  have hround := fmul_roundsTo hentry hrec
  refine ⟨fun hzero => ?_, fun hpos => ?_⟩
  · have hxzero : real x = 0 := by
      rw [hzero] at hle
      exact abs_nonpos_iff.1 hle
    have hn := normalize_of_isZero (x := x) ((isZero_iff_real hs).2 hzero)
    rw [hn, quantizeNearest_zero hct, ← dequantize_eq_tableWord, dequantize_seven hct] at hround ⊢
    rw [real_zero, zero_mul] at hround
    rw [(roundsTo_exact hround (c := 0x00000000#32) (by decide) real_zero).2, hxzero]
  · obtain ⟨hnfin, hnunit⟩ := normalize_in_unit_range hx hs hpos hle
    exact ⟨normalize_roundsTo hx hs hpos, hround,
      abs_element_sub_le hpos (abs_real_tableWord_le_one hct (BitVec.isLt _)) (abs_entry_sub_le hct hgap hnfin hnunit)⟩

end Sys2Proof.Machine

/-! SUPPORT. ENCODE and DECODE: the checks (44_packed_weight_codec.md R96, R100). -/

namespace Sys2Proof.Machine

/-! ## ENCODE's checks -/

/-- Checks 20 to 26, the first failing one (44_packed_weight_codec.md R96). -/
theorem firstFailing_encode (s : State) :
    firstFailing (checksOf .encode s) =
      if s.raw.length = 0 then some ⟨.shape, 20, 1, 0⟩
      else if shapeMismatch s.shape s.raw.length = true then some ⟨.shape, 21, s.raw.length, product s.shape⟩
      else if s.regB = 0 then some ⟨.shape, 22, 1, 0⟩
      else if s.raw.length % s.regB.toNat ≠ 0 then some ⟨.shape, 23, s.regB.toNat, s.raw.length⟩
      else if s.regS = 0 then some ⟨.shape, 24, 1, 0⟩
      else if s.raw.length / s.regB.toNat % s.regS.toNat ≠ 0 then
        some ⟨.shape, 25, s.regS.toNat, s.raw.length / s.regB.toNat⟩
      else if s.raw.length % 2 ≠ 0 then some ⟨.shape, 26, 2, s.raw.length⟩
      else none := by
  simp [checksOf, encodeChecks, firstFailing_cons]

/-- A shape without a zero dimension and of the right product passes checks 21 and 36. -/
theorem not_shapeMismatch {dims : List Word} {n : Nat} (hdims : ∀ d ∈ dims, d ≠ 0)
    (hprod : (dims.map BitVec.toNat).prod = n) : ¬ shapeMismatch dims n = true := by
  rw [shapeMismatch_iff]
  rintro (⟨d, hd, hzero⟩ | hne)
  · exact hdims d hd hzero
  · exact hne hprod

/-- The conditions under which no check of ENCODE fails (44_packed_weight_codec.md R96). -/
def EncodePasses (s : State) : Prop :=
  s.raw.length ≠ 0 ∧ ¬ shapeMismatch s.shape s.raw.length = true ∧ s.regB ≠ 0 ∧ s.raw.length % s.regB.toNat = 0 ∧
    s.regS ≠ 0 ∧ s.raw.length / s.regB.toNat % s.regS.toNat = 0 ∧ s.raw.length % 2 = 0

theorem firstFailing_encode_eq_none (s : State) : firstFailing (checksOf .encode s) = none ↔ EncodePasses s := by
  rw [firstFailing_encode]
  constructor
  · intro h
    split_ifs at h with hraw hshape hb hmod hs hmod' hodd
    exact ⟨hraw, hshape, hb, not_not.1 hmod, hs, not_not.1 hmod', not_not.1 hodd⟩
  · rintro ⟨hraw, hshape, hb, hmod, hs, hmod', heven⟩
    rw [if_neg hraw, if_neg hshape, if_neg hb, if_neg (not_not.2 hmod), if_neg hs, if_neg (not_not.2 hmod'),
      if_neg (not_not.2 heven)]

/-- Settles O37: each condition selects its branch of `firstFailing_encode`. -/
theorem encodeReportsFirstFailingCheck : Obligations.EncodeReportsFirstFailingCheck := by
  intro s
  have hfirst := firstFailing_encode s
  refine ⟨fun hraw => ?_, fun hraw => ⟨fun hshape => ?_, fun hdims hprod => ?_⟩⟩
  · rw [if_pos hraw] at hfirst
    exact exec_reports hfirst (show 20 < 2 ^ 32 by decide)
  · rw [if_neg hraw, if_pos ((shapeMismatch_iff _ _).2 hshape)] at hfirst
    have hexec := exec_reports hfirst (show 21 < 2 ^ 32 by decide)
    refine ⟨hexec, fun hcut => hexec.trans ?_⟩
    rw [← cut32_of_le hcut]
    rfl
  rw [if_neg hraw, if_neg (not_shapeMismatch hdims hprod)] at hfirst
  refine ⟨fun hb => ?_, fun hb => ⟨fun hmod => ?_, fun hmod => ⟨fun hs => ?_, fun hs => ⟨fun hmod' => ?_,
    fun hmod' hodd => ?_⟩⟩⟩⟩
  · rw [if_pos hb] at hfirst
    exact exec_reports hfirst (show 22 < 2 ^ 32 by decide)
  · rw [if_neg hb, if_pos hmod] at hfirst
    exact exec_reports hfirst (show 23 < 2 ^ 32 by decide)
  · rw [if_neg hb, if_neg (not_not.2 hmod), if_pos hs] at hfirst
    exact exec_reports hfirst (show 24 < 2 ^ 32 by decide)
  · rw [if_neg hb, if_neg (not_not.2 hmod), if_neg hs, if_pos hmod'] at hfirst
    exact exec_reports hfirst (show 25 < 2 ^ 32 by decide)
  · rw [if_neg hb, if_neg (not_not.2 hmod), if_neg hs, if_neg (not_not.2 hmod'), if_pos hodd] at hfirst
    exact exec_reports hfirst (show 26 < 2 ^ 32 by decide)

/-! ## DECODE's checks -/

/-- Checks 30 to 36, the first failing one (44_packed_weight_codec.md R100). -/
theorem firstFailing_decode {s : State} {n : Nat} (hn : n = 2 * s.w.packedBytes.length) :
    firstFailing (checksOf .decode s) =
      if s.w.blockSize = 0 then some ⟨.corruptedState, 30, 1, 0⟩
      else if n % s.w.blockSize.toNat ≠ 0 then some ⟨.corruptedState, 31, s.w.blockSize.toNat, n⟩
      else if s.w.quantizedScalers.length ≠ n / s.w.blockSize.toNat then
        some ⟨.corruptedState, 32, n / s.w.blockSize.toNat, s.w.quantizedScalers.length⟩
      else if s.w.scalerBlockSize = 0 then some ⟨.corruptedState, 33, 1, 0⟩
      else if s.w.quantizedScalers.length % s.w.scalerBlockSize.toNat ≠ 0 then
        some ⟨.corruptedState, 34, s.w.scalerBlockSize.toNat, s.w.quantizedScalers.length⟩
      else if s.w.quantizationFactor.length ≠ s.w.quantizedScalers.length / s.w.scalerBlockSize.toNat then
        some ⟨.corruptedState, 35, s.w.quantizedScalers.length / s.w.scalerBlockSize.toNat,
          s.w.quantizationFactor.length⟩
      else if shapeMismatch s.w.originalShape n = true then
        some ⟨.corruptedState, 36, n, product s.w.originalShape⟩
      else none := by
  subst hn
  simp [checksOf, decodeChecks, firstFailing_cons]

theorem toNat_pos_iff (x : Word) : 0 < x.toNat ↔ x ≠ 0 := by
  rw [Nat.pos_iff_ne_zero, ne_eq, ne_eq, ← BitVec.toNat_inj]
  rfl

/-- No check of DECODE fails exactly on a consistent aggregate (44_packed_weight_codec.md R100, 10_state.md R23). -/
theorem firstFailing_decode_eq_none (s : State) : firstFailing (checksOf .decode s) = none ↔ consistent s.w := by
  have hshape : ¬ shapeMismatch s.w.originalShape (2 * s.w.packedBytes.length) = true ↔
      (∀ d ∈ s.w.originalShape, d ≠ 0) ∧ (s.w.originalShape.map BitVec.toNat).prod = 2 * s.w.packedBytes.length := by
    rw [shapeMismatch_iff]
    push Not
    rfl
  rw [firstFailing_decode rfl, consistent, toNat_pos_iff, toNat_pos_iff]
  constructor
  · intro h
    split_ifs at h with hb hmod hqs hs hmod' hqf hmis
    obtain ⟨hdims, hprod⟩ := hshape.1 hmis
    exact ⟨hb, hs, hdims, hprod, not_not.1 hmod, not_not.1 hqs, not_not.1 hmod', not_not.1 hqf⟩
  · rintro ⟨hb, hs, hdims, hprod, hmod, hqs, hmod', hqf⟩
    rw [if_neg hb, if_neg (not_not.2 hmod), if_neg (not_not.2 hqs), if_neg hs, if_neg (not_not.2 hmod'),
      if_neg (not_not.2 hqf), if_neg (hshape.2 ⟨hdims, hprod⟩)]

/-- Settles O41: each condition selects its branch of `firstFailing_decode`. -/
theorem decodeReportsFirstFailingCheck : Obligations.DecodeReportsFirstFailingCheck := by
  intro s n hn
  have hfirst := firstFailing_decode hn
  refine ⟨fun hb => ?_, fun hb => ⟨fun hmod => ?_, fun hmod => ⟨fun hqs => ?_, fun hqs => ⟨fun hs => ?_, fun hs =>
    ⟨fun hmod' => ?_, fun hmod' => ⟨fun hqf => ?_, fun hqf => ⟨fun hshape => ?_, fun hdims hprod => ?_⟩⟩⟩⟩⟩⟩⟩
  · rw [if_pos hb] at hfirst
    exact exec_reports hfirst (show 30 < 2 ^ 32 by decide)
  · rw [if_neg hb, if_pos hmod] at hfirst
    exact exec_reports hfirst (show 31 < 2 ^ 32 by decide)
  · rw [if_neg hb, if_neg (not_not.2 hmod), if_pos hqs] at hfirst
    exact exec_reports hfirst (show 32 < 2 ^ 32 by decide)
  all_goals rw [if_neg hb, if_neg (not_not.2 hmod), if_neg (not_not.2 hqs)] at hfirst
  · rw [if_pos hs] at hfirst
    exact exec_reports hfirst (show 33 < 2 ^ 32 by decide)
  · rw [if_neg hs, if_pos hmod'] at hfirst
    exact exec_reports hfirst (show 34 < 2 ^ 32 by decide)
  · rw [if_neg hs, if_neg (not_not.2 hmod'), if_pos hqf] at hfirst
    exact exec_reports hfirst (show 35 < 2 ^ 32 by decide)
  all_goals rw [if_neg hs, if_neg (not_not.2 hmod'), if_neg (not_not.2 hqf)] at hfirst
  · rw [if_pos ((shapeMismatch_iff _ _).2 hshape)] at hfirst
    have hexec := exec_reports hfirst (show 36 < 2 ^ 32 by decide)
    refine ⟨hexec, fun hcut => hexec.trans ?_⟩
    rw [← cut32_of_le hcut]
    rfl
  · rw [if_neg (not_shapeMismatch hdims hprod)] at hfirst
    exact ⟨_, exec_of_passes hfirst, rfl⟩

/-- Settles O43: DECODE ends without error exactly when none of its checks fails. -/
theorem decodeAcceptsExactlyConsistent : Obligations.DecodeAcceptsExactlyConsistent := by
  intro s
  rw [← firstFailing_decode_eq_none]
  refine ⟨fun ⟨t, ht, hnoerr⟩ => ?_, fun hpasses => ⟨_, exec_of_passes hpasses, rfl⟩⟩
  obtain ⟨f, -, rfl⟩ | ⟨hpasses, -⟩ := exec_cases ht
  · exact absurd (congrArg ErrorRegs.err hnoerr) (errorCode_ne_zero f.kind)
  · exact hpasses

end Sys2Proof.Machine

/-! SUPPORT. ENCODE and DECODE: the results (44_packed_weight_codec.md R96 to R99, R104). -/

namespace Sys2Proof.Machine

/-! ## The elements of what they compute -/

theorem widened_getD {fmt : RawFmt} {raw : List F16} {i : Nat} (hi : i < raw.length) :
    (raw.map (widen fmt)).getD i 0 = widen fmt (raw.getD i 0) := by
  rw [List.getD_eq_getElem _ _ (by rwa [List.length_map]), List.getD_eq_getElem _ _ hi, List.getElem_map]

/-- Code `i` of ENCODE (44_packed_weight_codec.md R96). -/
theorem elementCodes_getD {ct : CodeTable} {xs scales : List Num32} {k i : Nat} (hi : i < xs.length) :
    (elementCodes ct xs scales k).getD i 0 =
      quantizeNearest ct (Machine.normalize (xs.getD i 0) (scales.getD (i / k) 0)) := by
  rw [List.getD_eq_getElem _ _ (by simpa using hi), List.getD_eq_getElem xs _ hi]
  simp only [elementCodes, List.getElem_mapIdx]

/-- Element `i` of DECODE (44_packed_weight_codec.md R99). -/
theorem decodeValues_getD {fmt : RawFmt} {ct : CodeTable} {w : Aggregate} {i : Nat}
    (hi : i < 2 * w.packedBytes.length) :
    (decodeValues fmt ct w).getD i 0 =
      narrow fmt (fmul (dequantize ct ((unpackBytes w.packedBytes).getD i 0))
        ((decompress w.quantizedScalers w.quantizationFactor w.scalerBlockSize.toNat w.scalerMean).getD
          (i / w.blockSize.toNat) 0)) := by
  rw [List.getD_eq_getElem _ _ (by simpa using hi), List.getD_eq_getElem (unpackBytes _) _ (by simpa using hi)]
  simp only [decodeValues, List.getElem_mapIdx]

/-! ## ENCODE -/

/-- The block scales of RAW (44_packed_weight_codec.md R96). -/
def rawScales (s : State) : List Num32 := absmaxPerBlock (s.raw.map (widen s.params.rawFmt)) s.regB.toNat

/-- The element codes of RAW, before they are packed (44_packed_weight_codec.md R96). -/
def rawCodes (s : State) : List U4 :=
  elementCodes s.params.codeTable (s.raw.map (widen s.params.rawFmt)) (rawScales s) s.regB.toNat

theorem rawScales_length (s : State) : (rawScales s).length = s.raw.length / s.regB.toNat := by
  rw [rawScales, absmaxPerBlock_length, List.length_map]

theorem rawCodes_length (s : State) : (rawCodes s).length = s.raw.length := by
  rw [rawCodes, elementCodes_length, List.length_map]

theorem rawCodes_getD {s : State} {i : Nat} (hi : i < s.raw.length) :
    (rawCodes s).getD i 0 = quantizeNearest s.params.codeTable
      (Machine.normalize (widen s.params.rawFmt (s.raw.getD i 0)) ((rawScales s).getD (i / s.regB.toNat) 0)) := by
  rw [rawCodes, elementCodes_getD (by rwa [List.length_map]), widened_getD hi]

/-- Settles O38: the write is `encodeAggregate`, and byte `k` joins codes `2k` and `2k + 1`. -/
theorem encodeBuildsAggregate : Obligations.EncodeBuildsAggregate := by
  intro s hraw hdims hprod hb hmod hs hmod' heven
  have hpasses := (firstFailing_encode_eq_none s).2
    ⟨hraw, not_shapeMismatch hdims hprod, hb, hmod, hs, hmod', heven⟩
  refine ⟨rawScales s, fun i => (rawCodes s).getD i 0, packCodes (rawCodes s), rfl, exec_of_passes hpasses,
    rawScales_length s, fun i hi => ?_, by rw [packCodes_length, rawCodes_length], fun k hk => ?_⟩
  · simp only [rawCodes_getD hi]
    exact ⟨fun hz => by rw [normalize_of_isZero hz], fun hz => by rw [normalize_of_ne_zero hz]⟩
  · rw [packCodes_getD _ _ (by rwa [rawCodes_length]), packByte_toNat]

/-- What a successful ENCODE has checked and written (44_packed_weight_codec.md R96). -/
theorem encode_succeeds {s t : State} (h : exec .encode s = .next t) (ht : t.errors = ⟨0, 0, 0, 0⟩) :
    EncodePasses s ∧ t = finish (effectOf .encode s) := by
  obtain ⟨f, -, rfl⟩ | ⟨hnone, rfl⟩ := exec_cases h
  · exact absurd (congrArg ErrorRegs.err ht) (errorCode_ne_zero f.kind)
  · exact ⟨(firstFailing_encode_eq_none s).1 hnone, rfl⟩

/-- ENCODE builds a consistent aggregate (44_packed_weight_codec.md R98, 10_state.md R23). -/
theorem encodeAggregate_consistent {s : State} (h : EncodePasses s) : consistent (effectOf .encode s).w := by
  obtain ⟨-, hshape, hb, hmod, hs, hmod', heven⟩ := h
  have hlen : 2 * (s.raw.length / 2) = s.raw.length := by omega
  rw [shapeMismatch_iff] at hshape
  push Not at hshape
  obtain ⟨hdims, hprod⟩ := hshape
  simp only [effectOf, setW_w, encodeAggregate, consistent, packCodes_length, elementCodes_length, List.length_map,
    hlen, compress_codes_length, absmaxPerBlock_length, compress_factors_length, toNat_pos_iff]
  exact ⟨hb, hs, hdims, hprod, hmod, trivial, hmod', trivial⟩

/-! ## DECODE -/

/-- Settles O42: the write is `decodeValues`, whose codes are the nibbles of the bytes. -/
theorem decodeRescalesEveryCode : Obligations.DecodeRescalesEveryCode := by
  intro s hs
  have hpasses := (firstFailing_decode_eq_none s).2 hs
  obtain ⟨-, -, -, -, -, hqs, -, -⟩ := hs
  refine ⟨_, decodeValues s.params.rawFmt s.params.codeTable s.w, rfl, exec_of_passes hpasses, ?_,
    decodeValues_length _ _ _, fun k hk => ?_⟩
  · rw [decompress_length, hqs]
  · obtain ⟨hhigh, hlow⟩ := unpackBytes_getD s.w.packedBytes k
    rw [decodeValues_getD (by omega), decodeValues_getD (by omega), hhigh, hlow, dequantize_eq_tableWord,
      dequantize_eq_tableWord, highNibble_toNat, lowNibble_toNat]
    exact ⟨rfl, rfl⟩

/-- Settles O44: the aggregate ENCODE builds is consistent, and it has half as many bytes as elements. -/
theorem decodeAfterEncodeSucceeds : Obligations.DecodeAfterEncodeSucceeds := by
  intro s t hst hnoerr
  obtain ⟨hpasses, rfl⟩ := encode_succeeds hst hnoerr
  have hw : consistent (finish (effectOf .encode s)).w := encodeAggregate_consistent hpasses
  refine ⟨hw, _, exec_of_passes ((firstFailing_decode_eq_none _).2 hw), ?_⟩
  obtain ⟨-, -, -, -, -, -, heven⟩ := hpasses
  have hpacked : (finish (effectOf .encode s)).w.packedBytes.length = s.raw.length / 2 := by
    simp [effectOf, encodeAggregate]
  calc (decodeValues _ _ (finish (effectOf .encode s)).w).length
    _ = 2 * (s.raw.length / 2) := by rw [decodeValues_length, hpacked]
    _ = s.raw.length := by omega

end Sys2Proof.Machine

/-! SUPPORT. The tensor of zeros (44_packed_weight_codec.md R104): every computed sequence is constant. -/

namespace Sys2Proof.Machine

theorem eq_replicate_of_getD {α : Type} {l : List α} {n : Nat} {a d : α} (hlen : l.length = n)
    (h : ∀ i < n, l.getD i d = a) : l = List.replicate n a := by
  refine List.ext_getElem (by rw [hlen, List.length_replicate]) fun i hi _ => ?_
  rw [List.getElem_replicate, ← List.getD_eq_getElem l d hi]
  exact h i (hlen ▸ hi)

/-- Reading a sequence of `+0` gives `+0`, in or out of range. -/
theorem getD_replicate_zero (n i : Nat) : (List.replicate n 0x00000000#32).getD i 0 = 0x00000000#32 := by
  rw [List.getD_eq_getElem?_getD]
  exact List.getElem?_getD_replicate_default_eq ..

/-! ## The block scales -/

/-- Both zeros of either format are widened to a zero. -/
theorem clearSign_widen_zero (fmt : RawFmt) {h : F16} (hh : h = 0x0000#16 ∨ h = 0x8000#16) :
    isFinite (widen fmt h) = true ∧ clearSign (widen fmt h) = 0x00000000#32 := by
  obtain rfl | rfl := hh <;> cases fmt <;> decide +kernel

/-- The scales of a tensor of zeros are `+0`. -/
theorem rawScales_zero {s : State} (hraw : ∀ h ∈ s.raw, h = 0x0000#16 ∨ h = 0x8000#16) :
    rawScales s = List.replicate (s.raw.length / s.regB.toNat) 0x00000000#32 := by
  have hget : ∀ i < s.raw.length, isFinite ((s.raw.map (widen s.params.rawFmt)).getD i 0) = true ∧
      clearSign ((s.raw.map (widen s.params.rawFmt)).getD i 0) = 0x00000000#32 := fun i hi => by
    rw [widened_getD hi, List.getD_eq_getElem _ _ hi]
    exact clearSign_widen_zero _ (hraw _ (List.getElem_mem hi))
  refine eq_replicate_of_getD (d := 0) (rawScales_length s) fun j hj => ?_
  obtain ⟨⟨i, hi, hmax⟩, -⟩ := absmaxPerBlock_spec (xs := s.raw.map (widen s.params.rawFmt))
    (by rwa [List.length_map]) fun i hi => (hget _ (block_index_lt hj hi)).1
  rw [rawScales, hmax, (hget _ (block_index_lt hj hi)).2]

/-! ## compress and decompress -/

theorem foldl_fadd_zero (n : Nat) : (List.replicate n 0x00000000#32).foldl fadd 0 = 0x00000000#32 := by
  induction n with
  | zero => rfl
  | succ n ih =>
    rw [List.replicate_succ, List.foldl_cons, show fadd 0 0x00000000#32 = 0 by decide +kernel, ih]

/-- A count below `2^31` is a `Num` other than zero, without sign (00_scope.md R15). -/
theorem i2f_natCast {n : Nat} (hpos : 0 < n) (hlt : n < 2 ^ 31) :
    isFinite (i2f n) = true ∧ isZero (i2f n) = false ∧ signOf (i2f n) = false := by
  have hround := i2f_roundsTo n
  have habs : |((n : Int) : ℚ)| = n := by rw [Int.cast_natCast, Nat.abs_cast]
  have hlt' : (n : ℚ) < 2 ^ 31 := by exact_mod_cast hlt
  have hge : (1 : ℚ) ≤ n := by exact_mod_cast hpos
  have hfin := isFinite_of_roundsTo hround (by rw [habs, overflow32]; norm_num at hlt' ⊢; linarith)
  refine ⟨hfin, (isZero_eq_false_iff hfin).2 fun hzero => ?_, ?_⟩
  · have hsmall := abs_lt_of_roundsTo_zero hround hfin hzero
    rw [habs] at hsmall
    norm_num at hsmall
    linarith
  · rw [i2f, signOf_roundNum]
    exact decide_eq_false (by omega)

theorem meanFn_zero {n : Nat} (hpos : 0 < n) (hlt : n < 2 ^ 31) :
    meanFn (List.replicate n 0x00000000#32) = 0x00000000#32 := by
  obtain ⟨hfin, hzero, hsign⟩ := i2f_natCast hpos hlt
  rw [meanFn, foldl_fadd_zero, List.length_replicate, fdiv_of_finite (by decide) hfin hzero, hsign,
    show magOf 0x00000000#32 = 0 by decide, Nat.zero_mul]
  exact roundNum_zero false _

theorem centered_zero {n : Nat} (hpos : 0 < n) (hlt : n < 2 ^ 31) :
    centered (List.replicate n 0x00000000#32) = List.replicate n 0x00000000#32 := by
  rw [centered, meanFn_zero hpos hlt, List.map_replicate, show fsub 0x00000000#32 0x00000000#32 = 0x00000000#32 by
    decide +kernel]

theorem absmaxPerBlock_zero (n k : Nat) :
    absmaxPerBlock (List.replicate n 0x00000000#32) k = List.replicate (n / k) 0x00000000#32 := by
  refine eq_replicate_of_getD (d := 0) (by rw [absmaxPerBlock_length, List.length_replicate]) fun j hj => ?_
  have hfin : ∀ i < k, isFinite ((List.replicate n 0x00000000#32).getD (j * k + i) 0) = true := fun i _ => by
    rw [getD_replicate_zero]
    decide
  obtain ⟨⟨i, -, hmax⟩, -⟩ := absmaxPerBlock_spec (by rwa [List.length_replicate]) hfin
  rw [hmax, getD_replicate_zero]
  decide

/-- Scales all zero are one degenerate chunk after the other (44_packed_weight_codec.md R104). -/
theorem compress_zero {n k : Nat} (hpos : 0 < n) (hlt : n < 2 ^ 31) (hmod : n % k = 0) :
    compress (List.replicate n 0x00000000#32) k =
      ⟨List.replicate n 0, List.replicate (n / k) 0x3F800000#32, 0x00000000#32⟩ := by
  have hfactors : chunkFactors (List.replicate n 0x00000000#32) k = List.replicate (n / k) 0x3F800000#32 := by
    rw [chunkFactors, absmaxPerBlock_zero, List.map_replicate, chunkFactor_of_isZero (by decide)]
  have hcodes : scalerCodes (List.replicate n 0x00000000#32) (List.replicate (n / k) 0x3F800000#32) k =
      List.replicate n 0 := by
    refine eq_replicate_of_getD (d := 0) (by rw [scalerCodes_length, List.length_replicate]) fun i hi => ?_
    rw [scalerCodes_getD _ _ _ _ (by rwa [List.length_replicate]),
      List.getD_replicate _ hi, List.getD_replicate _ (block_of_index_lt hmod hi)]
    decide +kernel
  rw [compress, centered_zero hpos hlt, hfactors, hcodes, meanFn_zero hpos hlt]

theorem decompress_zero {n k : Nat} (hmod : n % k = 0) :
    decompress (List.replicate n 0) (List.replicate (n / k) 0x3F800000#32) k 0x00000000#32 =
      List.replicate n 0x00000000#32 := by
  refine eq_replicate_of_getD (d := 0) (by rw [decompress_length, List.length_replicate]) fun i hi => ?_
  rw [decompress_getD _ _ _ _ _ (by rwa [List.length_replicate]),
    List.getD_replicate _ hi, List.getD_replicate _ (block_of_index_lt hmod hi)]
  decide +kernel

/-! ## Codes and elements -/

/-- In blocks of scale zero every code is 7, the code of `+0`. -/
theorem rawCodes_zero {s : State} (hct : codeTableWf s.params.codeTable)
    (hraw : ∀ h ∈ s.raw, h = 0x0000#16 ∨ h = 0x8000#16) : rawCodes s = List.replicate s.raw.length 7 := by
  refine eq_replicate_of_getD (d := 0) (rawCodes_length s) fun i hi => ?_
  have hscale : isZero ((rawScales s).getD (i / s.regB.toNat) 0) = true := by
    rw [rawScales_zero hraw, getD_replicate_zero]
    decide
  rw [rawCodes_getD hi, normalize_of_isZero hscale, quantizeNearest_zero hct]

theorem packCodes_replicate_seven (n : Nat) : packCodes (List.replicate n 7) = List.replicate (n / 2) 0x77#8 := by
  refine eq_replicate_of_getD (d := 0) (by rw [packCodes_length, List.length_replicate]) fun k hk => ?_
  rw [packCodes_getD _ _ (by rwa [List.length_replicate]), List.getD_replicate _ (by omega),
    List.getD_replicate _ (by omega)]
  decide

theorem unpackBytes_replicate (n : Nat) : unpackBytes (List.replicate n 0x77#8) = List.replicate (2 * n) 7 := by
  induction n with
  | zero => rfl
  | succ n ih =>
    rw [List.replicate_succ, unpackBytes, ih, Nat.mul_succ, List.replicate_succ, List.replicate_succ]
    rfl

/-- An aggregate of zero scales and codes 7 decodes to `+0` everywhere. -/
theorem decodeValues_zero {fmt : RawFmt} {ct : CodeTable} (hct : codeTableWf ct) {w : Aggregate} {m n : Nat}
    (hmod : n % w.scalerBlockSize.toNat = 0) (hqs : w.quantizedScalers = List.replicate n 0)
    (hqf : w.quantizationFactor = List.replicate (n / w.scalerBlockSize.toNat) 0x3F800000#32)
    (hmean : w.scalerMean = 0x00000000#32) (hpacked : w.packedBytes = List.replicate m 0x77#8) :
    decodeValues fmt ct w = List.replicate (2 * m) 0x0000#16 := by
  have hlen : w.packedBytes.length = m := by rw [hpacked, List.length_replicate]
  refine eq_replicate_of_getD (d := 0) (by rw [decodeValues_length, hlen]) fun i hi => ?_
  rw [decodeValues_getD (by rwa [hlen]), hpacked, unpackBytes_replicate, List.getD_replicate _ hi,
    dequantize_seven hct, hqs, hqf, hmean, decompress_zero hmod, getD_replicate_zero]
  cases fmt <;> decide +kernel

/-- Settles O45: each field of the aggregate is constant, and so is what DECODE computes from it. -/
theorem zeroTensorRoundTrips : Obligations.ZeroTensorRoundTrips := by
  intro s hct hraw hne hlt hdims hprod hb hmod hs hmod' heven
  have henc : EncodePasses s := ⟨hne, not_shapeMismatch hdims hprod, hb, hmod, hs, hmod', heven⟩
  have hblocks : 0 < s.raw.length / s.regB.toNat :=
    Nat.div_pos (Nat.le_of_dvd (Nat.pos_of_ne_zero hne) (Nat.dvd_of_mod_eq_zero hmod)) ((toNat_pos_iff _).2 hb)
  have hcompress := compress_zero hblocks ((Nat.div_le_self _ _).trans_lt hlt) hmod'
  rw [← rawScales_zero hraw] at hcompress
  obtain ⟨t, ht⟩ : ∃ t, t = finish (effectOf .encode s) := ⟨_, rfl⟩
  have hencode : exec .encode s = .next t := by
    rw [ht, exec_of_passes ((firstFailing_encode_eq_none s).2 henc)]
  have hw : consistent t.w := by
    rw [ht]
    exact encodeAggregate_consistent henc
  have hqs : t.w.quantizedScalers = List.replicate (s.raw.length / s.regB.toNat) 0 := by
    rw [ht]
    exact congrArg Compressed.codes hcompress
  have hqf : t.w.quantizationFactor =
      List.replicate (s.raw.length / s.regB.toNat / s.regS.toNat) 0x3F800000#32 := by
    rw [ht]
    exact congrArg Compressed.factors hcompress
  have hmean : t.w.scalerMean = 0x00000000#32 := by
    rw [ht]
    exact congrArg Compressed.mean hcompress
  have hpacked : t.w.packedBytes = List.replicate (s.raw.length / 2) 0x77#8 := by
    rw [ht, ← packCodes_replicate_seven, ← rawCodes_zero hct hraw]
    rfl
  refine ⟨t, _, hencode, by rw [ht]; rfl, hqs, hqf, hmean, hpacked,
    exec_of_passes ((firstFailing_decode_eq_none t).2 hw), rfl, ?_, by rw [ht]; rfl⟩
  have hS : t.w.scalerBlockSize = s.regS := by rw [ht]; rfl
  have hparams : t.params = s.params := by rw [ht]; rfl
  have hout := decodeValues_zero (fmt := t.params.rawFmt) (hparams ▸ hct) (by rwa [hS]) hqs (by rwa [hS]) hmean hpacked
  rwa [show 2 * (s.raw.length / 2) = s.raw.length by omega] at hout

end Sys2Proof.Machine
